-- ==== Sys2Proof/Word.lean ====
section
/-! DEFINITION. The word types of the CHIP-8 core (spec/00_scope.md R6-R8) and their plainest arithmetic. -/

namespace Sys2Proof

/-- An 8-bit value: a register, a timer, a byte of memory, an immediate NN (R6 `V_WIDTH`, `TIMER_WIDTH`). -/
abbrev Byte := BitVec 8

/-- A 16-bit value: `pc`, `I`, a stack entry, an opcode (R6 `PC_WIDTH`, `I_WIDTH`, `STACK_ENTRY_WIDTH`). -/
abbrev Word := BitVec 16

/-- A register number 0..15, in range by construction (R10: a 4-bit field). -/
abbrev Reg := Fin 16

/-- A key number 0..15 (R17, R110: the index port is 4 bits wide). -/
abbrev Key := Fin 16

/-- `trunc_8(v)` of R7's primitives: `v mod 256`. -/
abbrev trunc8 (n : Nat) : Byte := BitVec.ofNat 8 n

/-- `trunc_16(v)` of R7's primitives: `v mod 65536`. -/
abbrev trunc16 (n : Nat) : Word := BitVec.ofNat 16 n

/-- VF, the flag register (R11). -/
abbrev vf : Reg := 15

end Sys2Proof
end

