-- ==== Sys2Proof/Config.lean ====
section
/-! DEFINITION. The parameters of the block that hold no program-visible rule of their own (spec/00_scope.md R6), and
the one free value (R9, R84). -/

namespace Sys2Proof.Config

/-- `MEM_SIZE`: exactly 4096 bytes, no guard bytes (R6, R25; D2, log 5). -/
abbrev memSize : Nat := 0x1000

/-- `PROGRAM_BASE`, also `PC_RESET` (R6, R26). -/
abbrev programBase : Nat := 0x200

/-- `MAX_PROGRAM`: the longest image `load_program` accepts (R6, R33). -/
abbrev maxProgram : Nat := 0xE00

/-- The free value of CXNN: the draws that successive steps are given (R9, R84; D24: no distribution, no independence,
no seed). It has no body, so nothing can be proved of what it answers (log 2). -/
opaque freeDraw : Nat → Byte

end Sys2Proof.Config
end

