-- ==== Sys2Proof/Syntax.lean ====
section
/-! DEFINITION. The instruction set: one constructor per row of spec/opcode_table.json (spec/30_encoding.md R44). -/

namespace Sys2Proof

/-- The 34 instructions, in the order of R44. A register field X or Y is a register number; NN is a byte; NNN is the
12-bit address already zero-extended to 16 bits (R40, R42), so `WellFormed` asks it to be below 0x1000; N is a count
0..15. SHR and SHL keep the Y field that they ignore (R81, R83), so that no bit of a word is lost in decoding. -/
inductive Instr where
  /-- `00E0` CLS (R59) -/
  | cls
  /-- `00EE` RET (R64) -/
  | ret
  /-- `1NNN` JP NNN (R65) -/
  | jp (nnn : Word)
  /-- `2NNN` CALL NNN (R66) -/
  | call (nnn : Word)
  /-- `3XNN` SE VX, NN (R67) -/
  | seByte (x : Reg) (nn : Byte)
  /-- `4XNN` SNE VX, NN (R68) -/
  | sneByte (x : Reg) (nn : Byte)
  /-- `5XY0` SE VX, VY (R69) -/
  | seReg (x y : Reg)
  /-- `9XY0` SNE VX, VY (R70) -/
  | sneReg (x y : Reg)
  /-- `6XNN` LD VX, NN (R73) -/
  | ldByte (x : Reg) (nn : Byte)
  /-- `7XNN` ADD VX, NN (R74) -/
  | addByte (x : Reg) (nn : Byte)
  /-- `8XY0` LD VX, VY (R75) -/
  | ldReg (x y : Reg)
  /-- `8XY1` OR VX, VY (R76) -/
  | orReg (x y : Reg)
  /-- `8XY2` AND VX, VY (R77) -/
  | andReg (x y : Reg)
  /-- `8XY3` XOR VX, VY (R78) -/
  | xorReg (x y : Reg)
  /-- `8XY4` ADD VX, VY (R79) -/
  | addReg (x y : Reg)
  /-- `8XY5` SUB VX, VY (R80) -/
  | subReg (x y : Reg)
  /-- `8XY6` SHR VX {, VY} (R81) -/
  | shr (x y : Reg)
  /-- `8XY7` SUBN VX, VY (R82) -/
  | subnReg (x y : Reg)
  /-- `8XYE` SHL VX {, VY} (R83) -/
  | shl (x y : Reg)
  /-- `ANNN` LD I, NNN (R87) -/
  | ldI (nnn : Word)
  /-- `BNNN` JP V0, NNN (R71) -/
  | jpV0 (nnn : Word)
  /-- `CXNN` RND VX, NN (R84) -/
  | rnd (x : Reg) (nn : Byte)
  /-- `DXYN` DRW VX, VY, N (R60) -/
  | drw (x y : Reg) (n : Fin 16)
  /-- `EX9E` SKP VX (R93) -/
  | skp (x : Reg)
  /-- `EXA1` SKNP VX (R94) -/
  | sknp (x : Reg)
  /-- `FX07` LD VX, DT (R95) -/
  | ldVxDt (x : Reg)
  /-- `FX15` LD DT, VX (R97) -/
  | ldDtVx (x : Reg)
  /-- `FX18` LD ST, VX (R98) -/
  | ldStVx (x : Reg)
  /-- `FX1E` ADD I, VX (R88) -/
  | addI (x : Reg)
  /-- `FX0A` LD VX, K (R96) -/
  | ldVxK (x : Reg)
  /-- `FX29` LD F, VX (R89) -/
  | ldF (x : Reg)
  /-- `FX33` LD B, VX (R90) -/
  | ldB (x : Reg)
  /-- `FX55` LD [I], VX (R91) -/
  | storeRegs (x : Reg)
  /-- `FX65` LD VX, [I] (R92) -/
  | loadRegs (x : Reg)
  deriving DecidableEq, Repr

end Sys2Proof
end

