-- ==== Sys2Proof/WellFormed.lean ====
section
/-! DEFINITION. Which instruction terms an opcode can stand for. -/

namespace Sys2Proof

/-- An address operand NNN fits its 12-bit field (R40, R42). -/
def fits12 (nnn : Word) : Bool := decide (nnn.toNat < 0x1000)

/-- A term is well-formed when its address operand, where it has one, fits 12 bits. Register numbers, the byte NN and
the height N are in range by their types (R10, R42). -/
def Instr.wellFormed : Instr → Bool
  | .jp nnn => fits12 nnn
  | .call nnn => fits12 nnn
  | .ldI nnn => fits12 nnn
  | .jpV0 nnn => fits12 nnn
  | .cls | .ret => true
  | .seByte _ _ | .sneByte _ _ | .ldByte _ _ | .addByte _ _ | .rnd _ _ => true
  | .seReg _ _ | .sneReg _ _ | .ldReg _ _ | .orReg _ _ | .andReg _ _ | .xorReg _ _ => true
  | .addReg _ _ | .subReg _ _ | .shr _ _ | .subnReg _ _ | .shl _ _ => true
  | .drw _ _ _ => true
  | .skp _ | .sknp _ | .ldVxDt _ | .ldDtVx _ | .ldStVx _ | .addI _ | .ldVxK _ => true
  | .ldF _ | .ldB _ | .storeRegs _ | .loadRegs _ => true

end Sys2Proof
end

