-- ==== Sys2Proof/Decode.lean ====
section
/-! DEFINITION. The decoder, from the table of spec/30_encoding.md R44, and the encoder. -/

namespace Sys2Proof

/-! Fields (R41, R42): `op[hi:lo]`, each at its fixed place. -/

/-- X = op[11:8]. -/
def fieldX (op : Word) : Reg := (op.extractLsb' 8 4).toFin

/-- Y = op[7:4]. -/
def fieldY (op : Word) : Reg := (op.extractLsb' 4 4).toFin

/-- N = op[3:0]. -/
def fieldN (op : Word) : Fin 16 := (op.extractLsb' 0 4).toFin

/-- NN = op[7:0]. -/
def fieldNN (op : Word) : Byte := op.extractLsb' 0 8

/-- zext_16(NNN), NNN = op[11:0]. -/
def fieldNNN (op : Word) : Word := (op.extractLsb' 0 12).setWidth 16

/-- One row of the decode table of R44. -/
structure Row where
  /-- the bits the row fixes -/
  mask : Word
  /-- what they hold -/
  pattern : Word
  /-- the instruction, its operands taken from the word -/
  build : Word → Instr

/-- A word matches a row when `(op & mask) == match` (R44). -/
def Row.matches (r : Row) (op : Word) : Bool := op &&& r.mask == r.pattern

/-- Rows 1-8 of R44: families 0 to 5 and 9. -/
def rowsControl : List Row :=
  [⟨0xFFFF, 0x00E0, fun _ => .cls⟩,
   ⟨0xFFFF, 0x00EE, fun _ => .ret⟩,
   ⟨0xF000, 0x1000, fun op => .jp (fieldNNN op)⟩,
   ⟨0xF000, 0x2000, fun op => .call (fieldNNN op)⟩,
   ⟨0xF000, 0x3000, fun op => .seByte (fieldX op) (fieldNN op)⟩,
   ⟨0xF000, 0x4000, fun op => .sneByte (fieldX op) (fieldNN op)⟩,
   ⟨0xF00F, 0x5000, fun op => .seReg (fieldX op) (fieldY op)⟩,
   ⟨0xF00F, 0x9000, fun op => .sneReg (fieldX op) (fieldY op)⟩]

/-- Rows 9-19 of R44: families 6, 7 and 8. -/
def rowsAlu : List Row :=
  [⟨0xF000, 0x6000, fun op => .ldByte (fieldX op) (fieldNN op)⟩,
   ⟨0xF000, 0x7000, fun op => .addByte (fieldX op) (fieldNN op)⟩,
   ⟨0xF00F, 0x8000, fun op => .ldReg (fieldX op) (fieldY op)⟩,
   ⟨0xF00F, 0x8001, fun op => .orReg (fieldX op) (fieldY op)⟩,
   ⟨0xF00F, 0x8002, fun op => .andReg (fieldX op) (fieldY op)⟩,
   ⟨0xF00F, 0x8003, fun op => .xorReg (fieldX op) (fieldY op)⟩,
   ⟨0xF00F, 0x8004, fun op => .addReg (fieldX op) (fieldY op)⟩,
   ⟨0xF00F, 0x8005, fun op => .subReg (fieldX op) (fieldY op)⟩,
   ⟨0xF00F, 0x8006, fun op => .shr (fieldX op) (fieldY op)⟩,
   ⟨0xF00F, 0x8007, fun op => .subnReg (fieldX op) (fieldY op)⟩,
   ⟨0xF00F, 0x800E, fun op => .shl (fieldX op) (fieldY op)⟩]

/-- Rows 20-25 of R44: families A to E. -/
def rowsMiddle : List Row :=
  [⟨0xF000, 0xA000, fun op => .ldI (fieldNNN op)⟩,
   ⟨0xF000, 0xB000, fun op => .jpV0 (fieldNNN op)⟩,
   ⟨0xF000, 0xC000, fun op => .rnd (fieldX op) (fieldNN op)⟩,
   ⟨0xF000, 0xD000, fun op => .drw (fieldX op) (fieldY op) (fieldN op)⟩,
   ⟨0xF0FF, 0xE09E, fun op => .skp (fieldX op)⟩,
   ⟨0xF0FF, 0xE0A1, fun op => .sknp (fieldX op)⟩]

/-- Rows 26-34 of R44: family F. -/
def rowsMisc : List Row :=
  [⟨0xF0FF, 0xF007, fun op => .ldVxDt (fieldX op)⟩,
   ⟨0xF0FF, 0xF015, fun op => .ldDtVx (fieldX op)⟩,
   ⟨0xF0FF, 0xF018, fun op => .ldStVx (fieldX op)⟩,
   ⟨0xF0FF, 0xF01E, fun op => .addI (fieldX op)⟩,
   ⟨0xF0FF, 0xF00A, fun op => .ldVxK (fieldX op)⟩,
   ⟨0xF0FF, 0xF029, fun op => .ldF (fieldX op)⟩,
   ⟨0xF0FF, 0xF033, fun op => .ldB (fieldX op)⟩,
   ⟨0xF0FF, 0xF055, fun op => .storeRegs (fieldX op)⟩,
   ⟨0xF0FF, 0xF065, fun op => .loadRegs (fieldX op)⟩]

/-- The complete decode table of R44, 34 rows. -/
def decodeTable : List Row := rowsControl ++ rowsAlu ++ rowsMiddle ++ rowsMisc

/-- Why bytes are not one of the 34 instructions. -/
inductive DecodeError where
  /-- fewer than the two bytes every instruction has (R39) -/
  | tooShort
  /-- the word matches no row of R44 (R45): the unknown opcode of R55 -/
  | unknownOpcode (op : Word)
  deriving DecidableEq, Repr

/-- `Decode(op)`: the row whose `(op & mask) == match`, or unknown (R47, R53). Every word not listed in R44 is unknown
(R45, R46; D6, log 9). -/
def decodeWord (op : Word) : Except DecodeError Instr :=
  match decodeTable.find? (fun r => r.matches op) with
  | some r => .ok (r.build op)
  | none => .error (.unknownOpcode op)

/-- `(hi << 8) | lo`: the byte at the lower address is the high byte (R29, R52). -/
def joinBytes (hi lo : Byte) : Word := (hi.setWidth 16 <<< 8) ||| lo.setWidth 16

/-- The two bytes of a word as memory holds them, high byte first (R29). -/
def splitWord (op : Word) : Byte × Byte := (op.extractLsb' 8 8, op.extractLsb' 0 8)

/-- Decode the instruction at the head of a byte sequence, and what follows it (R39: always two bytes). -/
def decode : List Byte → Except DecodeError (Instr × List Byte)
  | hi :: lo :: rest =>
    match decodeWord (joinBytes hi lo) with
    | .ok i => .ok (i, rest)
    | .error e => .error e
  | _ => .error .tooShort

/-- The word whose bits above `nbits` are zero; an instruction has 16 bits (R39). -/
def wordOfBits (nbits w : Nat) : Word := trunc16 (w % 2 ^ nbits)

/-- The instruction the decoder reads from the bits `w`, numbered as spec/opcode_table.json numbers them (bit 15 is the
most significant bit of the one word, R7). -/
def decodeTableWord (nbits w : Nat) : Option Instr :=
  match decode [(splitWord (wordOfBits nbits w)).1, (splitWord (wordOfBits nbits w)).2] with
  | .ok (i, _) => some i
  | .error _ => none

/-! The encoder: the word of each row of R44, its fields at their places (R41). -/

/-- `FNNN`. -/
def wordNNN (f : Nat) (nnn : Word) : Word := trunc16 (f * 0x1000 + nnn.toNat % 0x1000)

/-- `FXNN`. -/
def wordXNN (f : Nat) (x : Reg) (nn : Nat) : Word := trunc16 (f * 0x1000 + x.val * 0x100 + nn)

/-- `FXYN`. -/
def wordXYN (f : Nat) (x y : Reg) (n : Nat) : Word := trunc16 (f * 0x1000 + x.val * 0x100 + y.val * 0x10 + n)

/-- The word of an instruction (R44). -/
def encode : Instr → Word
  | .cls => 0x00E0
  | .ret => 0x00EE
  | .jp nnn => wordNNN 0x1 nnn
  | .call nnn => wordNNN 0x2 nnn
  | .seByte x nn => wordXNN 0x3 x nn.toNat
  | .sneByte x nn => wordXNN 0x4 x nn.toNat
  | .seReg x y => wordXYN 0x5 x y 0x0
  | .sneReg x y => wordXYN 0x9 x y 0x0
  | .ldByte x nn => wordXNN 0x6 x nn.toNat
  | .addByte x nn => wordXNN 0x7 x nn.toNat
  | .ldReg x y => wordXYN 0x8 x y 0x0
  | .orReg x y => wordXYN 0x8 x y 0x1
  | .andReg x y => wordXYN 0x8 x y 0x2
  | .xorReg x y => wordXYN 0x8 x y 0x3
  | .addReg x y => wordXYN 0x8 x y 0x4
  | .subReg x y => wordXYN 0x8 x y 0x5
  | .shr x y => wordXYN 0x8 x y 0x6
  | .subnReg x y => wordXYN 0x8 x y 0x7
  | .shl x y => wordXYN 0x8 x y 0xE
  | .ldI nnn => wordNNN 0xA nnn
  | .jpV0 nnn => wordNNN 0xB nnn
  | .rnd x nn => wordXNN 0xC x nn.toNat
  | .drw x y n => wordXYN 0xD x y n.val
  | .skp x => wordXNN 0xE x 0x9E
  | .sknp x => wordXNN 0xE x 0xA1
  | .ldVxDt x => wordXNN 0xF x 0x07
  | .ldDtVx x => wordXNN 0xF x 0x15
  | .ldStVx x => wordXNN 0xF x 0x18
  | .addI x => wordXNN 0xF x 0x1E
  | .ldVxK x => wordXNN 0xF x 0x0A
  | .ldF x => wordXNN 0xF x 0x29
  | .ldB x => wordXNN 0xF x 0x33
  | .storeRegs x => wordXNN 0xF x 0x55
  | .loadRegs x => wordXNN 0xF x 0x65

end Sys2Proof
end

