-- ==== Sys2Proof/Machine/State.lean ====
section
/-! DEFINITION. The machine state of spec/10_state.md, the reasons a step can stop, and the state after reset (R23). -/

namespace Sys2Proof.Machine

/-- The faults of R99. `raise` (R100) records one in `State.fault` and the step goes on to a NEXT state, so no step of
this model ends in the host's outcome `fault`: the spec describes the entry, and it is taken (log 8). -/
inductive Fault where
  /-- Code 1: fetch, DXYN, FX33, FX55 or FX65 at an address of 0x1000 or more; `a` is the first such address (R27, R99).
  Raised by the engine and those instructions. Safe (D3). -/
  | memoryFault (a : Word)
  /-- Code 2: 2NNN with SP = 16 (R66). Safe (D4). -/
  | stackOverflow
  /-- Code 3: 00EE with SP = 0 (R64). Safe (D4). -/
  | stackUnderflow
  /-- Code 4: EX9E or EXA1 with V[X] > 15; `v` is the register's value (R93, R94). Safe (D14). -/
  | keyIndexFault (v : Byte)
  deriving DecidableEq, Repr

/-- Why a step has no meaning. -/
inductive Refusal where
  /-- Raised by `exec` for an instruction with no meaning yet. No instruction of this model raises it. Safe. -/
  | notModelled (mnemonic : String)
  deriving DecidableEq, Repr

/-- Memory (R25) as the bytes that differ from their reset contents, at strictly rising addresses. -/
abbrev Memory := List Host.Cell

/-- The 64x32 grid, `fb[y][x]`: 32 rows (y) of 64 columns (x); `true` is a set cell, 1 (R18; D32, log 28). -/
abbrev Framebuffer := Vector (Vector Bool 64) 32

/-- The machine state: all that R10-R20 and R25 name, and the model's two fields for the free draw. -/
structure State where
  /-- V[0]..V[15] (R10); V[15] is VF (R11) -/
  v : Vector Byte 16
  /-- I, the index register (R12) -/
  i : Word
  /-- pc (R13) -/
  pc : Word
  /-- SP, the number of occupied stack entries, 0..16 (R15) -/
  sp : Fin 17
  /-- S[0]..S[15] (R15) -/
  stack : Vector Word 16
  /-- DT, the delay timer (R16) -/
  dt : Byte
  /-- ST, the sound timer (R16) -/
  st : Byte
  /-- K[0]..K[15], true when pressed (R17) -/
  keys : Vector Bool 16
  /-- FB (R18) -/
  fb : Framebuffer
  /-- redraw_pending (R19) -/
  redraw : Bool
  /-- the sticky fault register; `none` while the engine runs (R20) -/
  fault : Option Fault
  /-- memory (R25) -/
  mem : Memory
  /-- MODEL'S OWN: the draw the next CXNN reads, a free value (R9, R84; log 2) -/
  rand : Byte
  /-- MODEL'S OWN: how many draws have been taken from `Config.freeDraw` (log 2) -/
  drawIndex : Nat
  deriving DecidableEq, Repr

/-- The state after `initialize()` (R23, R116). Memory lists nothing, so every byte reads as its reset contents. The
draw is whatever `Config.freeDraw` holds (DESIGN CHOICE, log 2); the zeros R23 gives on D21's ground are log 4's. -/
def State.reset : State where
  v := Vector.replicate 16 0
  i := 0
  pc := trunc16 Config.programBase
  sp := 0
  stack := Vector.replicate 16 0
  dt := 0
  st := 0
  keys := Vector.replicate 16 false
  fb := Vector.replicate 32 (Vector.replicate 64 false)
  redraw := false
  fault := none
  mem := []
  rand := Config.freeDraw 0
  drawIndex := 1

end Sys2Proof.Machine
end

