-- ==== Sys2Proof/Machine/Ops.lean ====
section
/-! DEFINITION. The shared operations over memory, registers, pc and stack, taking a fault (R100) and the way out of it
(R102), and fetching an instruction (R52). -/

namespace Sys2Proof.Machine

/-! ## Memory (spec/20_memory.md) -/

/-- What an address that nothing has written holds: `FONT` at 0x000-0x04F and 0 elsewhere (R23, R117). -/
def unlisted (a : Nat) : Byte := font.getD a 0

/-- The byte `memory[a]`. The bound of R27 is checked by `memRead` and `firstBad`. -/
def Memory.read : Memory → Nat → Byte
  | [], a => unlisted a
  | (k, c) :: rest, a => if k = a then c else Memory.read rest a

/-- `memory[a] <- b`, in the canonical form. -/
def Memory.write : Memory → Nat → Byte → Memory
  | [], a, b => if b = unlisted a then [] else [(a, b)]
  | (k, c) :: rest, a, b =>
    if a < k then (if b = unlisted a then (k, c) :: rest else (a, b) :: (k, c) :: rest)
    else if k = a then (if b = unlisted a then rest else (a, b) :: rest)
    else (k, c) :: Memory.write rest a b

/-- The canonical form from address `lo` up: addresses rise strictly, exist, and no entry is what its address holds
when unlisted. -/
def Memory.wfFrom : Nat → Memory → Bool
  | _, [] => true
  | lo, (a, b) :: rest => decide (lo ≤ a) && decide (a < Config.memSize) && (b != unlisted a) && Memory.wfFrom (a + 1) rest

/-- The canonical form of a memory: equal contents are equal data. -/
def Memory.wf (m : Memory) : Bool := Memory.wfFrom 0 m

/-- The bytes at `a`, `a + 1`, ... (R28: consecutive increasing addresses). -/
def Memory.readBlock (m : Memory) : Nat → Nat → List Byte
  | _, 0 => []
  | a, n + 1 => m.read a :: Memory.readBlock m (a + 1) n

/-- Store bytes at `a`, `a + 1`, ... in increasing order (R28, R34). -/
def Memory.writeBlock : Memory → Nat → List Byte → Memory
  | m, _, [] => m
  | m, a, b :: bs => Memory.writeBlock (m.write a b) (a + 1) bs

/-- `MemRead(a, 1)` (R27); the address is not reduced before the bound check (R52). -/
def memRead (m : Memory) (a : Nat) : Except Fault Byte :=
  if Config.memSize ≤ a then .error (.memoryFault (trunc16 a)) else .ok (m.read a)

/-- `for k in 0..n-1: if a + k >= 0x1000: raise MemoryFault(trunc_16(a + k))`: the fault of the first address of a block
that does not exist, if any (R27, R56, R60, R90-R92). -/
def firstBad : Nat → Nat → Option Fault
  | _, 0 => none
  | a, n + 1 => if Config.memSize ≤ a then some (.memoryFault (trunc16 a)) else firstBad (a + 1) n

/-! ## Registers and pc -/

/-- `V[x]` (R10). -/
def State.getV (s : State) (x : Reg) : Byte := s.v[x]

/-- `V[x] <- b` (R10). -/
def State.setV (x : Reg) (b : Byte) (s : State) : State := { s with v := s.v.set x b }

/-- `pc <- trunc_16(pc + n)` (R54; modulo 65536 with no 12-bit mask, D12, log 14). -/
def State.advance (n : Nat) (s : State) : State := { s with pc := trunc16 (s.pc.toNat + n) }

/-- `pc <- target` (R54). -/
def State.jump (target : Word) (s : State) : State := { s with pc := target }

/-- A skip: 4 when the condition holds, else 2 (R54, R67). -/
def State.skipIf (c : Bool) (s : State) : State := if c then s.advance 4 else s.advance 2

/-! ## Faults (spec/60_exceptions.md) -/

/-- `raise F(info)` (R100): `fault` is set and nothing else changes; `pc` still holds the faulting instruction's address.
There is no vector and nothing else is saved (R101). -/
def State.raise (f : Fault) (s : State) : State := { s with fault := some f }

/-- `initialize()` (R116): every piece of state takes its reset value, whatever it was. It is the only way out of a
fault (R102). The model's own draw fields are not state of the core and go on (log 23). -/
def State.init (s : State) : State := { State.reset with rand := s.rand, drawIndex := s.drawIndex }

/-- The numeric code of the fault register (R99). -/
def faultCode : Option Fault → Nat
  | none => 0
  | some (.memoryFault _) => 1
  | some .stackOverflow => 2
  | some .stackUnderflow => 3
  | some (.keyIndexFault _) => 4

/-- The end of an instruction whose checks answer a fault or the completed state: a fault is raised on the state before
the instruction (R56, R100). -/
def State.settle (s : State) : Except Fault State → Host.Outcome State Fault Refusal
  | .ok t => .next t
  | .error f => .next (s.raise f)

/-- An instruction that first checks the `n` addresses from `a` (R27, R56) and then goes on. -/
def State.guarded (s : State) (a n : Nat) (t : State) : Host.Outcome State Fault Refusal :=
  match firstBad a n with
  | some f => s.settle (.error f)
  | none => s.settle (.ok t)

/-! ## Stack (spec/10_state.md R15) -/

/-- `SP <- n`. -/
def State.setSp (n : Fin 17) (s : State) : State := { s with sp := n }

/-- `S[k] <- w`. -/
def State.setEntry (k : Fin 16) (w : Word) (s : State) : State := { s with stack := s.stack.set k w }

/-- Push: `if SP = 16: raise StackOverflow; S[SP] <- ra; SP <- SP + 1` (R66). -/
def State.push (ra : Word) (s : State) : Except Fault State :=
  if h : s.sp.val < 16 then
    .ok ((s.setEntry ⟨s.sp.val, h⟩ ra).setSp ⟨s.sp.val + 1, by omega⟩)
  else .error .stackOverflow

/-- Pop: `if SP = 0: raise StackUnderflow; SP <- SP - 1`, answering `S[SP]`; the entry is not cleared (R64). -/
def State.pop (s : State) : Except Fault (Word × State) :=
  if h : s.sp.val = 0 then .error .stackUnderflow
  else .ok (s.stack[s.sp.val - 1], s.setSp ⟨s.sp.val - 1, by omega⟩)

/-! ## Fetch (spec/40_engine.md R52) -/

/-- `Fetch(pc)`: the byte at `pc` is checked and read first, then the byte at `pc + 1`. -/
def State.fetch (s : State) : Except Fault Word :=
  match memRead s.mem s.pc.toNat with
  | .error f => .error f
  | .ok hi =>
    match memRead s.mem (s.pc.toNat + 1) with
    | .error f => .error f
    | .ok lo => .ok (joinBytes hi lo)

/-- The unknown-opcode path: `pc <- trunc_16(pc + 2)` and nothing else (R55). -/
def State.skipUnknown (s : State) : State := s.advance 2

/-- Store a word where the next fetch reads it, high byte first (R29). -/
def State.placeWord (op : Word) (s : State) : State :=
  { s with mem := s.mem.writeBlock s.pc.toNat [(splitWord op).1, (splitWord op).2] }

/-- The state made ready to fetch: not halted, and `pc` moved to 0x200 only where no word can be fetched at it
(log 25). -/
def State.readyToFetch (s : State) : State :=
  { s with fault := none, pc := if s.pc.toNat + 1 < Config.memSize then s.pc else trunc16 Config.programBase }

/-! ## The free draw (R9, R84) -/

/-- Take the draw: the next one is another value of `Config.freeDraw` (log 2). -/
def State.nextDraw (s : State) : State :=
  { s with rand := Config.freeDraw s.drawIndex, drawIndex := s.drawIndex + 1 }

end Sys2Proof.Machine
end

