-- ==== Sys2Proof/Machine/Operands.lean ====
section
/-! DEFINITION. The operand forms of spec/30_encoding.md R40. A register operand is `State.getV`, a byte immediate is the
byte NN, an address NNN is already zero-extended (R42); the other forms are here. -/

namespace Sys2Proof.Machine

/-- The target of BNNN: `zext_16(NNN) + zext_16(V[0])`, V[0] implicit, not reduced modulo 4096 (R71; D12, log 14). -/
def State.indexedTarget (s : State) (nnn : Word) : Word := trunc16 (nnn.toNat + (s.getV 0).toNat)

/-- The first address of an implicit `I`-based block (R40); byte k of the block is at `I + k` (R28). -/
def State.blockBase (s : State) : Nat := s.i.toNat

/-- The address of a glyph: `(V[X] & 0xF) * 5` (R89). -/
def glyphAddress (b : Byte) : Word := trunc16 ((b.toNat &&& 0xF) * 5)

/-- A register used as a key number: `if k > 15: raise KeyIndexFault(k)` (R93, R94; D14, log 15). -/
def keyOperand (b : Byte) : Except Fault Key :=
  if h : b.toNat < 16 then .ok ⟨b.toNat, h⟩ else .error (.keyIndexFault b)

/-- `K[k]`, the raw current level (R17, R93). -/
def State.keyDown (s : State) (k : Key) : Bool := s.keys[k]

/-- `min { k | K[k] }`, if any key is pressed (R96; D15, log 16). -/
def State.lowestKey (s : State) : Option Key := (List.finRange 16).find? (fun k => s.keyDown k)

/-- The decimal digits of a byte: hundreds, tens, ones (R90; C3). -/
def bcdDigits (b : Byte) : List Byte := [trunc8 (b.toNat / 100), trunc8 (b.toNat / 10 % 10), trunc8 (b.toNat % 10)]

/-- `V[0]..V[x]` in increasing order (R91). -/
def State.regsUpTo (s : State) (x : Reg) : List Byte := s.v.toList.take (x.val + 1)

/-- The registers after `V[k] <- memory[I + k]` for k in 0..x; those above x keep their value (R92). -/
def State.loadedRegs (s : State) (x : Reg) : Vector Byte 16 :=
  Vector.ofFn fun k : Fin 16 => if k ≤ x then s.mem.read (s.blockBase + k.val) else s.v[k]

/-- The sprite of DXYN: the N bytes at `I` (R60). -/
def State.spriteRows (s : State) (n : Fin 16) : List Byte := s.mem.readBlock s.blockBase n.val

end Sys2Proof.Machine
end

