-- ==== Sys2Proof/Machine/Flags.lean ====
section
/-! DEFINITION. The flag VF (spec/10_state.md R11): every flag an instruction computes, and the order in which it is
written (spec/43_alu.md R86). -/

namespace Sys2Proof.Machine

/-- A flag as the byte VF receives: 1 or 0. -/
def flagByte (c : Bool) : Byte := if c then 1 else 0

/-- 8XY4: the unsigned sum exceeds 255 (R79). -/
def carryFlag (a b : Byte) : Bool := decide (a.toNat + b.toNat > 255)

/-- 8XY5, 8XY7: no borrow in `a - b` (R80, R82). -/
def noBorrowFlag (a b : Byte) : Bool := decide (a.toNat ≥ b.toNat)

/-- 8XY6: the bit a right shift drops (R81). -/
def shiftedOutLow (a : Byte) : Bool := a.getLsbD 0

/-- 8XYE: the bit a left shift drops (R83). -/
def shiftedOutHigh (a : Byte) : Bool := a.getLsbD 7

/-- `V[15] <- flag`. -/
def State.setFlag (c : Bool) (s : State) : State := s.setV vf (flagByte c)

/-- Write the result and last the flag, so that with X = F the flag is what VF holds (R86; D8, log 11). -/
def State.setResultAndFlag (x : Reg) (result : Byte) (c : Bool) (s : State) : State := (s.setV x result).setFlag c

end Sys2Proof.Machine
end

