-- ==== Sys2Proof/Machine/Alu.lean ====
section
/-! DEFINITION. Register and arithmetic instructions (spec/43_alu.md R73-R86): exact results over the naturals, then
`trunc_8` (R85). -/

namespace Sys2Proof.Machine

/-- `6XNN` LD VX, NN (R73). -/
def execLdByte (x : Reg) (nn : Byte) (s : State) : Host.Outcome State Fault Refusal :=
  .next ((s.setV x nn).advance 2)

/-- `7XNN` ADD VX, NN (R74): no flag. -/
def execAddByte (x : Reg) (nn : Byte) (s : State) : Host.Outcome State Fault Refusal :=
  .next ((s.setV x (trunc8 ((s.getV x).toNat + nn.toNat))).advance 2)

/-- `8XY0` LD VX, VY (R75): no flag (D9, log 12). -/
def execLdReg (x y : Reg) (s : State) : Host.Outcome State Fault Refusal :=
  .next ((s.setV x (s.getV y)).advance 2)

/-- `8XY1` OR VX, VY (R76): VF is not reset (D9, log 12). -/
def execOrReg (x y : Reg) (s : State) : Host.Outcome State Fault Refusal :=
  .next ((s.setV x (s.getV x ||| s.getV y)).advance 2)

/-- `8XY2` AND VX, VY (R77). -/
def execAndReg (x y : Reg) (s : State) : Host.Outcome State Fault Refusal :=
  .next ((s.setV x (s.getV x &&& s.getV y)).advance 2)

/-- `8XY3` XOR VX, VY (R78). -/
def execXorReg (x y : Reg) (s : State) : Host.Outcome State Fault Refusal :=
  .next ((s.setV x (s.getV x ^^^ s.getV y)).advance 2)

/-- `8XY4` ADD VX, VY (R79): carry. -/
def execAddReg (x y : Reg) (s : State) : Host.Outcome State Fault Refusal :=
  .next ((s.setResultAndFlag x (trunc8 ((s.getV x).toNat + (s.getV y).toNat)) (carryFlag (s.getV x) (s.getV y))).advance 2)

/-- `8XY5` SUB VX, VY (R80): not borrow. -/
def execSubReg (x y : Reg) (s : State) : Host.Outcome State Fault Refusal :=
  .next ((s.setResultAndFlag x (trunc8 ((s.getV x).toNat + 256 - (s.getV y).toNat))
    (noBorrowFlag (s.getV x) (s.getV y))).advance 2)

/-- `8XY6` SHR VX (R81): V[X] is shifted in place and Y is ignored (D7, log 10). -/
def execShr (x _y : Reg) (s : State) : Host.Outcome State Fault Refusal :=
  .next ((s.setResultAndFlag x (trunc8 ((s.getV x).toNat >>> 1)) (shiftedOutLow (s.getV x))).advance 2)

/-- `8XY7` SUBN VX, VY (R82): not borrow of V[Y] - V[X]. -/
def execSubnReg (x y : Reg) (s : State) : Host.Outcome State Fault Refusal :=
  .next ((s.setResultAndFlag x (trunc8 ((s.getV y).toNat + 256 - (s.getV x).toNat))
    (noBorrowFlag (s.getV y) (s.getV x))).advance 2)

/-- `8XYE` SHL VX (R83): V[X] is shifted in place and Y is ignored (D7, log 10). -/
def execShl (x _y : Reg) (s : State) : Host.Outcome State Fault Refusal :=
  .next ((s.setResultAndFlag x (trunc8 ((s.getV x).toNat <<< 1)) (shiftedOutHigh (s.getV x))).advance 2)

/-- `CXNN` RND VX, NN (R84): the free draw AND NN; the draw is then spent (log 2). -/
def execRnd (x : Reg) (nn : Byte) (s : State) : Host.Outcome State Fault Refusal :=
  .next ((s.nextDraw.setV x (s.rand &&& nn)).advance 2)

end Sys2Proof.Machine
end

