-- ==== Sys2Proof/Machine/Control.lean ====
section
/-! DEFINITION. Return, jump, call, skips and indexed jump (spec/42_control_flow.md R64-R71). -/

namespace Sys2Proof.Machine

/-- `00EE` RET (R64): the popped value is used as it is. -/
def execRet (s : State) : Host.Outcome State Fault Refusal :=
  s.settle (match s.pop with
    | .ok (ra, t) => .ok (t.jump ra)
    | .error f => .error f)

/-- `1NNN` JP (R65). -/
def execJp (nnn : Word) (s : State) : Host.Outcome State Fault Refusal := .next (s.jump nnn)

/-- `2NNN` CALL (R66): the pushed value is the address of the instruction after the call. -/
def execCall (nnn : Word) (s : State) : Host.Outcome State Fault Refusal :=
  s.settle (match s.push (trunc16 (s.pc.toNat + 2)) with
    | .ok t => .ok (t.jump nnn)
    | .error f => .error f)

/-- `3XNN` SE VX, NN (R67). -/
def execSeByte (x : Reg) (nn : Byte) (s : State) : Host.Outcome State Fault Refusal :=
  .next (s.skipIf (s.getV x == nn))

/-- `4XNN` SNE VX, NN (R68). -/
def execSneByte (x : Reg) (nn : Byte) (s : State) : Host.Outcome State Fault Refusal :=
  .next (s.skipIf (s.getV x != nn))

/-- `5XY0` SE VX, VY (R69). -/
def execSeReg (x y : Reg) (s : State) : Host.Outcome State Fault Refusal :=
  .next (s.skipIf (s.getV x == s.getV y))

/-- `9XY0` SNE VX, VY (R70). -/
def execSneReg (x y : Reg) (s : State) : Host.Outcome State Fault Refusal :=
  .next (s.skipIf (s.getV x != s.getV y))

/-- `BNNN` JP V0, NNN (R71). -/
def execJpV0 (nnn : Word) (s : State) : Host.Outcome State Fault Refusal := .next (s.jump (s.indexedTarget nnn))

end Sys2Proof.Machine
end

