-- ==== Sys2Proof/Machine/Display.lean ====
section
/-! DEFINITION. 00E0 and DXYN, and the XOR-draw and collision unit (spec/41_display.md R59-R62). -/

namespace Sys2Proof.Machine

/-- Every cell 0 (R59). -/
def blankFramebuffer : Framebuffer := Vector.replicate 32 (Vector.replicate 64 false)

/-- `FB[y][x]` (R18). -/
def Framebuffer.cell (fb : Framebuffer) (y : Fin 32) (x : Fin 64) : Bool := fb[y][x]

/-- `FB[y][x] <- FB[y][x] ^ 1`. -/
def Framebuffer.toggle (fb : Framebuffer) (y : Fin 32) (x : Fin 64) : Framebuffer := fb.set y (fb[y].set x (!fb[y][x]))

/-- Bit `7 - c` of a sprite byte: its pixel in column c, the most significant bit leftmost (R61; D16, log 17). -/
def spriteBit (row : Byte) (c : Fin 8) : Bool := (row >>> (7 - c.val)).getLsbD 0

/-- `py`: row r of a sprite wraps into the grid (R60, R61). -/
def wrapRow (y0 r : Nat) : Fin 32 := ⟨(y0 + r) % 32, Nat.mod_lt _ (by decide)⟩

/-- `px`: column c of a sprite wraps into the grid (R60, R61). -/
def wrapColumn (x0 c : Nat) : Fin 64 := ⟨(x0 + c) % 64, Nat.mod_lt _ (by decide)⟩

/-- One sprite bit: a 1 toggles its cell, and collides when the cell was 1 (R60, R62). -/
def drawBit (x0 y0 r : Nat) (row : Byte) (acc : Framebuffer × Bool) (c : Fin 8) : Framebuffer × Bool :=
  if spriteBit row c then
    (acc.1.toggle (wrapRow y0 r) (wrapColumn x0 c.val), acc.2 || acc.1.cell (wrapRow y0 r) (wrapColumn x0 c.val))
  else acc

/-- One sprite byte: its bits from the left, c = 0..7 (R60). -/
def drawRow (x0 y0 r : Nat) (row : Byte) (acc : Framebuffer × Bool) : Framebuffer × Bool :=
  (List.finRange 8).foldl (drawBit x0 y0 r row) acc

/-- The sprite's bytes from row r down (R60). -/
def drawRows (x0 y0 : Nat) : Nat → List Byte → Framebuffer × Bool → Framebuffer × Bool
  | _, [], acc => acc
  | r, row :: rows, acc => drawRows x0 y0 (r + 1) rows (drawRow x0 y0 r row acc)

/-- The framebuffer and the collision of drawing the sprite of DXYN; the origin is read before VF is written (R60). -/
def State.drawSprite (s : State) (x y : Reg) (n : Fin 16) : Framebuffer × Bool :=
  drawRows (s.getV x).toNat (s.getV y).toNat 0 (s.spriteRows n) (s.fb, false)

/-- What 00E0 and DXYN do to the screen: a new framebuffer, and `redraw` set with no condition (R19; D18, log 18). -/
def State.show (fb : Framebuffer) (s : State) : State := { s with fb := fb, redraw := true }

/-- `00E0` CLS (R59). -/
def execCls (s : State) : Host.Outcome State Fault Refusal := .next ((s.show blankFramebuffer).advance 2)

/-- `DXYN` DRW (R60): every address is checked, the sprite drawn, VF written with the collision. -/
def execDrw (x y : Reg) (n : Fin 16) (s : State) : Host.Outcome State Fault Refusal :=
  s.guarded s.blockBase n.val
    (((s.show (s.drawSprite x y n).1).setFlag (s.drawSprite x y n).2).advance 2)

end Sys2Proof.Machine
end

