-- ==== Sys2Proof/Machine/IndexMemory.lean ====
section
/-! DEFINITION. The index register and the memory transfers (spec/44_index_memory.md R87-R92). -/

namespace Sys2Proof.Machine

/-- `I <- w`. -/
def State.setI (w : Word) (s : State) : State := { s with i := w }

/-- Store bytes at `I`, `I + 1`, ...; `I` itself is unchanged (R90, R91; D10, log 13). -/
def State.storeBlock (bytes : List Byte) (s : State) : State := { s with mem := s.mem.writeBlock s.blockBase bytes }

/-- Write all registers at once. -/
def State.setRegs (v : Vector Byte 16) (s : State) : State := { s with v := v }

/-- `ANNN` LD I, NNN (R87). -/
def execLdI (nnn : Word) (s : State) : Host.Outcome State Fault Refusal := .next ((s.setI nnn).advance 2)

/-- `FX1E` ADD I, VX (R88): modulo 65536, no flag (D11, log 12). -/
def execAddI (x : Reg) (s : State) : Host.Outcome State Fault Refusal :=
  .next ((s.setI (trunc16 (s.i.toNat + (s.getV x).toNat))).advance 2)

/-- `FX29` LD F, VX (R89). -/
def execLdF (x : Reg) (s : State) : Host.Outcome State Fault Refusal :=
  .next ((s.setI (glyphAddress (s.getV x))).advance 2)

/-- `FX33` LD B, VX (R90): three addresses checked, then the digits stored. -/
def execLdB (x : Reg) (s : State) : Host.Outcome State Fault Refusal :=
  s.guarded s.blockBase 3 ((s.storeBlock (bcdDigits (s.getV x))).advance 2)

/-- `FX55` LD [I], VX (R91). -/
def execStoreRegs (x : Reg) (s : State) : Host.Outcome State Fault Refusal :=
  s.guarded s.blockBase (x.val + 1) ((s.storeBlock (s.regsUpTo x)).advance 2)

/-- `FX65` LD VX, [I] (R92): all reads first. -/
def execLoadRegs (x : Reg) (s : State) : Host.Outcome State Fault Refusal :=
  s.guarded s.blockBase (x.val + 1) ((s.setRegs (s.loadedRegs x)).advance 2)

end Sys2Proof.Machine
end

