-- ==== Sys2Proof/Machine/KeysTimers.lean ====
section
/-! DEFINITION. Key and timer instructions (spec/45_keys_timers.md R93-R98). -/

namespace Sys2Proof.Machine

/-- `DT <- b`. -/
def State.setDt (b : Byte) (s : State) : State := { s with dt := b }

/-- `ST <- b`. -/
def State.setSt (b : Byte) (s : State) : State := { s with st := b }

/-- A skip on the level of the key numbered V[x]; `want` is the level that skips (R93, R94). -/
def State.skipOnKey (x : Reg) (want : Bool) (s : State) : Host.Outcome State Fault Refusal :=
  s.settle (match keyOperand (s.getV x) with
    | .ok k => .ok (s.skipIf (s.keyDown k == want))
    | .error f => .error f)

/-- `EX9E` SKP VX (R93). -/
def execSkp (x : Reg) (s : State) : Host.Outcome State Fault Refusal := s.skipOnKey x true

/-- `EXA1` SKNP VX (R94). -/
def execSknp (x : Reg) (s : State) : Host.Outcome State Fault Refusal := s.skipOnKey x false

/-- `FX07` LD VX, DT (R95). -/
def execLdVxDt (x : Reg) (s : State) : Host.Outcome State Fault Refusal := .next ((s.setV x s.dt).advance 2)

/-- `FX15` LD DT, VX (R97). -/
def execLdDtVx (x : Reg) (s : State) : Host.Outcome State Fault Refusal :=
  .next ((s.setDt (s.getV x)).advance 2)

/-- `FX18` LD ST, VX (R98). -/
def execLdStVx (x : Reg) (s : State) : Host.Outcome State Fault Refusal :=
  .next ((s.setSt (s.getV x)).advance 2)

/-- `FX0A` LD VX, K (R96): the lowest pressed key, or the same instruction again with nothing changed. -/
def execLdVxK (x : Reg) (s : State) : Host.Outcome State Fault Refusal :=
  .next (match s.lowestKey with
    | some k => (s.setV x (trunc8 k.val)).advance 2
    | none => s)

end Sys2Proof.Machine
end

