-- ==== Sys2Proof/Machine/Step.lean ====
section
/-! DEFINITION. The `step` transaction (spec/40_engine.md R51). -/

namespace Sys2Proof.Machine

/-- One step: nothing on a halted core; else fetch, decode and execute, or the unknown-opcode path. A fetch fault is
raised like any other (R51, R100). The draw is `State.rand` (R84, log 2); the warning of an unknown opcode is an output,
`State.warning` (R55, log 22). -/
def step (s : State) : Host.Outcome State Fault Refusal :=
  match s.fault with
  | some _ => .next s
  | none =>
    match s.fetch with
    | .error f => .next (s.raise f)
    | .ok op =>
      match decodeWord op with
      | .error _ => .next s.skipUnknown
      | .ok i => exec i s

/-- The state whose very next step fetches and runs the instruction with bits `w` (log 25). -/
def State.withFetchWord (s : State) (nbits w : Nat) : State := s.readyToFetch.placeWord (wordOfBits nbits w)

end Sys2Proof.Machine
end

