-- ==== Sys2Proof/Machine/Transactions.lean ====
section
/-! DEFINITION. The seven transactions of spec/00_scope.md R4, atomic and in any order (R5), with their outputs. -/

namespace Sys2Proof.Machine

/-- `UnknownOpcode(opcode, pc)`: the non-fatal decode warning (R55, R99). -/
structure Warning where
  /-- the unknown word -/
  opcode : Word
  /-- its address, before the advance (R55; D25, log 22) -/
  pc : Word
  deriving DecidableEq, Repr

/-- The warning that the next step emits, if any (R51, R55, R58): an output, not state (R21). -/
def State.warning (s : State) : Option Warning :=
  match s.fault with
  | some _ => none
  | none =>
    match s.fetch with
    | .error _ => none
    | .ok op =>
      match decodeWord op with
      | .error _ => some ⟨op, s.pc⟩
      | .ok _ => none

/-- The result of `load_program` (R34, R115). -/
inductive LoadResult where
  /-- the image was written -/
  | ok
  /-- the image is longer than 0xE00 bytes; nothing was written (R33) -/
  | programTooLarge
  deriving DecidableEq, Repr

/-- Write the bytes of an image from 0x200 on (R34). -/
def State.writeProgram (img : List Byte) (s : State) : State :=
  { s with mem := s.mem.writeBlock Config.programBase img }

/-- `load_program(img)` (R32-R34): at any time, any length up to the bound (D23, D35, log 21). -/
def State.loadProgram (img : List Byte) (s : State) : State × LoadResult :=
  if img.length > Config.maxProgram then (s, .programTooLarge)
  else (s.writeProgram img, .ok)

/-- The delay timer half of `tick()`: `if DT > 0: DT <- DT - 1` (R107). -/
def State.tickDelay (s : State) : State := if s.dt.toNat > 0 then s.setDt (s.dt - 1) else s

/-- The sound timer half of `tick()`, with the `sound_event` pulse (R107, R108). -/
def State.tickSound (s : State) : State × Bool :=
  if s.st.toNat = 1 then (s.setSt 0, true)
  else if s.st.toNat > 1 then (s.setSt (s.st - 1), false)
  else (s, false)

/-- `tick()` (R107): the delay timer first (D22, log 20); it does not look at `fault`. -/
def State.tick (s : State) : State × Bool := s.tickDelay.tickSound

/-- `set_key(index, pressed)` (R110; D36, log 24). -/
def State.setKey (k : Key) (pressed : Bool) (s : State) : State := { s with keys := s.keys.set k pressed }

/-- `redraw <- false` (R63). -/
def State.clearRedraw (s : State) : State := { s with redraw := false }

/-- `consume_frame()` (R63): the pending flag and the frame, and the flag cleared. -/
def State.consumeFrame (s : State) : State × Bool × Framebuffer := (s.clearRedraw, s.redraw, s.fb)

/-- A transaction with its inputs (R4). -/
inductive Transaction where
  /-- reset (R116) -/
  | init
  /-- R34 -/
  | loadProgram (img : List Byte)
  /-- one instruction, with its draw (R51, R84) -/
  | step (rand : Byte)
  /-- R107 -/
  | tick
  /-- R110 -/
  | setKey (index : Key) (pressed : Bool)
  /-- R63 -/
  | consumeFrame
  /-- binds the host's action to `sound_event`; no core state changes (R4, R108; log 20) -/
  | registerSoundCallback
  deriving DecidableEq, Repr

/-- What a transaction answers (R4). -/
inductive Reply where
  /-- `init`, `set_key`, `register_sound_callback`: no output beside the state -/
  | done
  /-- the result of `load_program` -/
  | loaded (r : LoadResult)
  /-- the warning of a step, if any, and the fault register after it (R58) -/
  | stepped (warning : Option Warning) (fault : Option Fault)
  /-- whether a tick fired `sound_event` -/
  | ticked (soundEvent : Bool)
  /-- the pending flag and the frame -/
  | frame (pending : Bool) (fb : Framebuffer)
  deriving DecidableEq, Repr

/-- The state with the draw of a step in place. -/
def State.withDraw (rand : Byte) (s : State) : State := { s with rand := rand }

/-- The model's own draw fields as they were in `s`: the draw of a step is an input, not remembered (R21). -/
def State.keepDraw (s t : State) : State := { t with rand := s.rand, drawIndex := s.drawIndex }

/-- `step(rand)` with its outputs. -/
def State.stepWith (rand : Byte) (s : State) : Host.Outcome (State × Reply) Fault Refusal :=
  match step (s.withDraw rand) with
  | .next t => .next (s.keepDraw t, .stepped s.warning t.fault)
  | .fault f => .fault f
  | .refused r => .refused r

/-- One transaction on the state the previous one left (R5). -/
def transact (t : Transaction) (s : State) : Host.Outcome (State × Reply) Fault Refusal :=
  match t with
  | .init => .next (s.init, .done)
  | .loadProgram img => .next ((s.loadProgram img).1, .loaded (s.loadProgram img).2)
  | .step rand => s.stepWith rand
  | .tick => .next (s.tick.1, .ticked s.tick.2)
  | .setKey k pressed => .next (s.setKey k pressed, .done)
  | .consumeFrame => .next (s.consumeFrame.1, .frame s.consumeFrame.2.1 s.consumeFrame.2.2)
  | .registerSoundCallback => .next (s, .done)

/-- A run: transactions in the order the host issues them, with their replies (R5: every order is a run). -/
def run : List Transaction → State → Host.Outcome (State × List Reply) Fault Refusal
  | [], s => .next (s, [])
  | t :: ts, s =>
    match transact t s with
    | .next (s', r) =>
      match run ts s' with
      | .next (s'', rs) => .next (s'', r :: rs)
      | .fault f => .fault f
      | .refused r => .refused r
    | .fault f => .fault f
    | .refused r => .refused r

end Sys2Proof.Machine
end

