-- ==== Sys2Proof/Safety.lean ====
section
/-! DEFINITION. The terms in which claims speak of a state and of a run: what two states share, which states are legal,
when a run is over, and which program counters a well-behaved program keeps to. -/

namespace Sys2Proof

/-- The pieces of state of R10-R20 and R25, and the model's own draw fields. -/
inductive Part where
  | v | i | pc | sp | stack | dt | st | keys | fb | redraw | fault | mem | draw
  deriving DecidableEq, Repr

open Machine

/-- Two states read the same in one piece of state. -/
def SamePart (s t : State) : Part → Prop
  | .v => ∀ r : Reg, t.getV r = s.getV r
  | .i => t.i = s.i
  | .pc => t.pc = s.pc
  | .sp => t.sp = s.sp
  | .stack => ∀ k : Fin 16, t.stack[k] = s.stack[k]
  | .dt => t.dt = s.dt
  | .st => t.st = s.st
  | .keys => ∀ k : Key, t.keyDown k = s.keyDown k
  | .fb => ∀ (y : Fin 32) (x : Fin 64), t.fb.cell y x = s.fb.cell y x
  | .redraw => t.redraw = s.redraw
  | .fault => t.fault = s.fault
  | .mem => ∀ a : Nat, t.mem.read a = s.mem.read a
  | .draw => t.rand = s.rand ∧ t.drawIndex = s.drawIndex

/-- Going from `s` to `t`, every piece of state outside `parts` reads as before. -/
def OnlyChanges (parts : List Part) (s t : State) : Prop := ∀ p : Part, p ∉ parts → SamePart s t p

/-- Every register outside `rs` reads as before. -/
def OnlyRegs (rs : List Reg) (s t : State) : Prop := ∀ r : Reg, r ∉ rs → t.getV r = s.getV r

/-- Every byte of memory outside the `n` bytes from `a` reads as before. -/
def OnlyBytes (a n : Nat) (s t : State) : Prop := ∀ b : Nat, (b < a ∨ a + n ≤ b) → t.mem.read b = s.mem.read b

/-- The byte at address `b` once `bytes` lie at `a`, over the memory of `s`. -/
def overlaid (s : State) (a : Nat) (bytes : List Byte) (b : Nat) : Byte :=
  if a ≤ b ∧ b < a + bytes.length then bytes.getD (b - a) 0 else s.mem.read b

/-- A fetch from `t` at any address `p` that has a word reads each of its two bytes from `bytes` where they lie over it, at
`a`, and from the memory of `s` elsewhere (R36, R52). At `p = t.pc` it is the fetch of the very next step. -/
def FetchesOverlaid (s t : State) (a : Nat) (bytes : List Byte) : Prop :=
  ∀ p : Word, p.toNat + 1 < Config.memSize → ∃ op, (t.jump p).fetch = .ok op ∧
    op.toNat = (overlaid s a bytes p.toNat).toNat * 256 + (overlaid s a bytes (p.toNat + 1)).toNat

/-- From `s` the fault `f` is taken: it is recorded and everything else reads as before (R100). -/
def TakesFault (f : Fault) (s t : State) : Prop := t.fault = some f ∧ OnlyChanges [.fault] s t

/-- A fault register agrees with the state it froze: its address does not exist, its key number is no key, the stack
was full or empty (R99, R100). -/
def FaultExplained (s : State) : Prop :=
  match s.fault with
  | none => True
  | some (.memoryFault a) => Config.memSize ≤ a.toNat
  | some .stackOverflow => s.sp.val = 16
  | some .stackUnderflow => s.sp.val = 0
  | some (.keyIndexFault b) => 15 < b.toNat

/-- The legal states: memory in its canonical form and the fault register explained by the rest of the state. -/
def LegalState (s : State) : Prop := s.mem.wf = true ∧ FaultExplained s

/-- The engine runs: no fault has been raised (R20). -/
def Running (s : State) : Prop := s.fault = none

/-- A state is safe when no fault is recorded; a claim that a run is safe asks this of every state of it. -/
def Safe (s : State) : Prop := Running s

/-- The premise R14 lets a claim make of a well-behaved program: pc even and within [0x200, memory length - 2]. The
machine does not enforce it (C2). -/
def PcWellBehaved (s : State) : Prop :=
  s.pc.toNat % 2 = 0 ∧ Config.programBase ≤ s.pc.toNat ∧ s.pc.toNat ≤ Config.memSize - 2

/-- The next instruction is a jump to its own address (R65, R125 (b)). -/
def AtSelfJump (s : State) : Prop := s.fetch = .ok (encode (.jp s.pc))

/-- The end of a run in the sense of R125 (a) and (b); (c), the host stopping, is the end of the transaction list. -/
def Ended (s : State) : Prop := s.fault ≠ none ∨ AtSelfJump s

/-- The cell in the given row and column receives a 1 bit of the sprite of DXYN: bit `7 - c` of the byte at I + r lands at column
(V[X] + c) mod 64 and row (V[Y] + r) mod 32 (R61). -/
def spriteCovers (s : State) (x y : Reg) (n : Fin 16) (row : Fin 32) (column : Fin 64) : Prop :=
  ∃ r c : Nat, r < n.val ∧ c < 8 ∧ (s.mem.read (s.i.toNat + r)).getLsbD (7 - c) = true ∧
    row.val = ((s.getV y).toNat + r) % 32 ∧ column.val = ((s.getV x).toNat + c) % 64

/-- The result registers of an instruction: those it writes with its result, not with a flag (R10). -/
def destinations : Instr → List Reg
  | .ldByte x _ | .addByte x _ | .rnd x _ => [x]
  | .ldReg x _ | .orReg x _ | .andReg x _ | .xorReg x _ => [x]
  | .addReg x _ | .subReg x _ | .shr x _ | .subnReg x _ | .shl x _ => [x]
  | .ldVxDt x | .ldVxK x => [x]
  | .loadRegs x => (List.finRange 16).filter (fun k => k ≤ x)
  | .cls | .ret | .jp _ | .call _ | .jpV0 _ => []
  | .seByte _ _ | .sneByte _ _ | .seReg _ _ | .sneReg _ _ => []
  | .ldI _ | .addI _ | .ldF _ | .ldB _ | .storeRegs _ => []
  | .drw _ _ _ | .skp _ | .sknp _ | .ldDtVx _ | .ldStVx _ => []

/-- The instructions that write VF as a flag (R11). -/
def writesFlag : Instr → Bool
  | .addReg _ _ | .subReg _ _ | .shr _ _ | .subnReg _ _ | .shl _ _ | .drw _ _ _ => true
  | .ldByte _ _ | .addByte _ _ | .rnd _ _ | .ldReg _ _ | .orReg _ _ | .andReg _ _ | .xorReg _ _ => false
  | .ldVxDt _ | .ldVxK _ | .loadRegs _ | .cls | .ret | .jp _ | .call _ | .jpV0 _ => false
  | .seByte _ _ | .sneByte _ _ | .seReg _ _ | .sneReg _ _ => false
  | .ldI _ | .addI _ | .ldF _ | .ldB _ | .storeRegs _ | .skp _ | .sknp _ | .ldDtVx _ | .ldStVx _ => false

end Sys2Proof
end

