-- ==== Sys2Proof/Certificates/Slice0/Obligations.lean ====
section
/-! DEFINITION. The statements for the provers. Each docstring names the rules it formalises. Where a clause rests on a
decision that the spec marks as its own (D<n> of spec/92_eei_decisions.md), the docstring says so and names the log
entry; such a statement has basis 'derived' in OBLIGATIONS.json. -/

open Sys2Proof Sys2Proof.Machine

/-! ### Encoding -/

/-- Words written out from the table of R44 decode to the instructions they stand for. -/
def Obligations.WrittenWordsDecode : Prop :=
  decodeWord 0x00E0 = .ok .cls ∧ decodeWord 0x2345 = .ok (.call 0x345) ∧ decodeWord 0x9AB0 = .ok (.sneReg 0xA 0xB) ∧
  decodeWord 0x7C21 = .ok (.addByte 0xC 0x21) ∧ decodeWord 0x8DE7 = .ok (.subnReg 0xD 0xE) ∧
  decodeWord 0xB123 = .ok (.jpV0 0x123) ∧ decodeWord 0xD47F = .ok (.drw 4 7 0xF) ∧ decodeWord 0xE5A1 = .ok (.sknp 5) ∧
  decodeWord 0xF633 = .ok (.ldB 6) ∧ decodeWord 0x8128 = .error (.unknownOpcode 0x8128)

/-- Decoding the word of a well-formed instruction gives the instruction back, and consumes its two bytes (R39, R44). -/
def Obligations.DecodeOfEncodeIsIdentity : Prop :=
  ∀ i : Instr, i.wellFormed = true →
    decodeWord (encode i) = .ok i ∧
    ∀ rest : List Byte, decode ((splitWord (encode i)).1 :: (splitWord (encode i)).2 :: rest) = .ok (i, rest)

/-- Every bit of a known word is kept: a decoded instruction is well-formed and encodes to the word (R41, R42, R44). -/
def Obligations.EncodeOfDecodeIsIdentity : Prop :=
  ∀ (op : Word) (i : Instr), decodeWord op = .ok i → i.wellFormed = true ∧ encode i = op

/-- R45: which words are unknown, in the rule's own list, and that running one is no trap: pc advances by 2 and the
engine goes on. (That these unlisted words are unknown, strictly, is the spec's own decision D6: log 9.) -/
def Obligations.UnknownWordsAreTheListedOnes : Prop :=
  (∀ op : Word, decodeWord op = .error (.unknownOpcode op) ↔
    (op.toNat / 0x1000 = 0x0 ∧ op.toNat ≠ 0x00E0 ∧ op.toNat ≠ 0x00EE) ∨
    (op.toNat / 0x1000 = 0x5 ∧ op.toNat % 0x10 ≠ 0) ∨
    (op.toNat / 0x1000 = 0x9 ∧ op.toNat % 0x10 ≠ 0) ∨
    (op.toNat / 0x1000 = 0x8 ∧ op.toNat % 0x10 ∈ [0x8, 0x9, 0xA, 0xB, 0xC, 0xD, 0xF]) ∨
    (op.toNat / 0x1000 = 0xE ∧ op.toNat % 0x100 ∉ [0x9E, 0xA1]) ∨
    (op.toNat / 0x1000 = 0xF ∧ op.toNat % 0x100 ∉ [0x07, 0x0A, 0x15, 0x18, 0x1E, 0x29, 0x33, 0x55, 0x65])) ∧
  (∀ (s : State) (op : Word), s.fault = none → s.fetch = .ok op → decodeWord op = .error (.unknownOpcode op) →
    ∃ t, step s = .next t ∧ t.fault = none ∧ t.pc = trunc16 (s.pc.toNat + 2))

/-- R44, R47: a word matches exactly one of the 34 rows and decodes by it, or matches none and is unknown. -/
def Obligations.EveryWordHasOneDecoding : Prop :=
  decodeTable.length = 34 ∧
  ∀ op : Word,
    (∃ k : Fin decodeTable.length, (∀ j : Fin decodeTable.length, decodeTable[j].matches op = true ↔ j = k) ∧
      decodeWord op = .ok (decodeTable[k].build op)) ∨
    ((∀ r ∈ decodeTable, r.matches op = false) ∧ decodeWord op = .error (.unknownOpcode op))

/-! ### The engine -/

/-- R51: when the two bytes at pc decode to an instruction, a step of a running core is that instruction's execution. -/
def Obligations.StepRunsTheDecodedInstruction : Prop :=
  ∀ (s : State) (i : Instr), s.fault = none → s.pc.toNat + 1 < 0x1000 →
    decode [s.mem.read s.pc.toNat, s.mem.read (s.pc.toNat + 1)] = .ok (i, []) → step s = exec i s

/-- What `withFetchWord` stands for (log 25, the model's own): the very next step runs the instruction of the bits. -/
def Obligations.PlacedWordIsRunNext : Prop :=
  ∀ (s : State) (nbits w : Nat) (i : Instr), s.mem.wf = true → nbits ≤ 16 → decodeTableWord nbits w = some i →
    step (s.withFetchWord nbits w) = exec i (s.withFetchWord nbits w)

/-- R52: a fetch reads two bytes, the one at the lower address high; a fetch that would leave the address space is a
fault at the first address that does not exist. (Faulting, and fetching at any other pc, odd or low, is the spec's own
decision D3, D13: log 6, log 14.) -/
def Obligations.FetchReadsTwoBytesOrFaults : Prop :=
  ∀ s : State,
    (s.pc.toNat + 1 < 0x1000 →
      ∃ op, s.fetch = .ok op ∧ op.toNat = (s.mem.read s.pc.toNat).toNat * 256 + (s.mem.read (s.pc.toNat + 1)).toNat) ∧
    (s.fault = none → s.pc.toNat = 0xFFF → ∃ t, step s = .next t ∧ TakesFault (.memoryFault 0x1000) s t) ∧
    (s.fault = none → 0x1000 ≤ s.pc.toNat → ∃ t, step s = .next t ∧ TakesFault (.memoryFault s.pc) s t)

/-- R55: the unknown-opcode path emits the warning with the word and its address, advances pc by 2 and changes nothing
else. (The address in the warning is the spec's own decision D25: log 22.) -/
def Obligations.UnknownOpcodeWarnsAndAdvances : Prop :=
  ∀ (rand : Byte) (s : State) (op : Word), s.fault = none → s.fetch = .ok op →
    decodeWord op = .error (.unknownOpcode op) →
    ∃ t, transact (.step rand) s = .next (t, .stepped (some ⟨op, s.pc⟩) none) ∧
      t.pc = trunc16 (s.pc.toNat + 2) ∧ OnlyChanges [.pc] s t

/-- R100, R103, R51: a step that raises a fault changes nothing else, and from then on every step changes nothing and
warns of nothing. (That a fault halts the core is the spec's own decision D5: log 8.) -/
def Obligations.FaultsArePreciseAndFinal : Prop :=
  ∀ s t : State, s.fault = none → step s = .next t → t.fault ≠ none →
    OnlyChanges [.fault] s t ∧
    ∀ draws : List Byte,
      run (draws.map .step) t = .next (t, draws.map (fun _ => .stepped none t.fault))

/-- R100, R102: every port but `step` and reset does on a halted core what it does on a running one, and none of them
clears the fault. (The spec's own decision D5: log 8.) -/
def Obligations.PortsWorkOnAHaltedCore : Prop :=
  ∀ (tr : Transaction) (f : Fault) (s : State), tr ≠ .init → (∀ rand, tr ≠ .step rand) →
    ∃ t r, transact tr s = .next (t, r) ∧ transact tr (s.raise f) = .next (t.raise f, r)

/-- R125: the core never stops on its own; every step answers a next state, and so does every run of transactions. -/
def Obligations.EveryRunGoesOn : Prop :=
  (∀ s : State, ∃ t, step s = .next t) ∧
  ∀ (ts : List Transaction) (s : State), ∃ t rs, run ts s = .next (t, rs) ∧ rs.length = ts.length

/-- R54: what an instruction that raises nothing writes to pc. (16-bit arithmetic with no 12-bit mask is the spec's own
decision D12: log 14.) -/
def Obligations.ProgramCounterDiscipline : Prop :=
  ∀ (i : Instr) (s t : State), s.fault = none → exec i s = .next t → t.fault = none →
    match i with
    | .jp nnn | .call nnn => t.pc = nnn
    | .jpV0 nnn => t.pc = trunc16 (nnn.toNat + (s.getV 0).toNat)
    | .ret => ∃ h : s.sp.val ≠ 0, t.pc = s.stack[s.sp.val - 1]
    | .seByte _ _ | .sneByte _ _ | .seReg _ _ | .sneReg _ _ | .skp _ | .sknp _ =>
      t.pc = trunc16 (s.pc.toNat + 2) ∨ t.pc = trunc16 (s.pc.toNat + 4)
    | .ldVxK _ => t.pc = if ∃ k : Key, s.keyDown k = true then trunc16 (s.pc.toNat + 2) else s.pc
    | _ => t.pc = trunc16 (s.pc.toNat + 2)

/-- R12, R15-R19, R25, R57: which instructions alone write I, the stack, the timers, the framebuffer, `redraw`, memory
and the model's draw; none writes the keys, and none clears `redraw`. -/
def Obligations.OnlyNamedInstructionsWrite : Prop :=
  ∀ (i : Instr) (s t : State), exec i s = .next t →
    SamePart s t .keys ∧ (s.redraw = true → t.redraw = true) ∧
    (¬ SamePart s t .i → (∃ n, i = .ldI n) ∨ (∃ x, i = .addI x) ∨ ∃ x, i = .ldF x) ∧
    (¬ SamePart s t .sp → i = .ret ∨ ∃ n, i = .call n) ∧ (¬ SamePart s t .stack → ∃ n, i = .call n) ∧
    (¬ SamePart s t .dt → ∃ x, i = .ldDtVx x) ∧ (¬ SamePart s t .st → ∃ x, i = .ldStVx x) ∧
    (¬ SamePart s t .fb → i = .cls ∨ ∃ x y n, i = .drw x y n) ∧
    (¬ SamePart s t .redraw → i = .cls ∨ ∃ x y n, i = .drw x y n) ∧
    (¬ SamePart s t .mem → (∃ x, i = .ldB x) ∨ ∃ x, i = .storeRegs x) ∧
    (¬ SamePart s t .draw → ∃ x nn, i = .rnd x nn)

/-- R10, R11: a register changes only as a result register of the instruction, or is VF and the instruction is one of
the six that write it as a flag. (That the other instructions leave VF alone is the spec's own decision D9, D11:
log 12.) -/
def Obligations.OnlyResultsAndFlagsChangeRegisters : Prop :=
  ∀ (i : Instr) (s t : State) (r : Reg), exec i s = .next t → t.getV r ≠ s.getV r →
    r ∈ destinations i ∨ (r = vf ∧ writesFlag i = true)

/-- R57, R9: the draw given with a step matters only when the word fetched is a CXNN. -/
def Obligations.DrawMattersOnlyToRandom : Prop :=
  ∀ (s : State) (r1 r2 : Byte), (∀ op x nn, s.fetch = .ok op → decodeWord op ≠ .ok (.rnd x nn)) →
    transact (.step r1) s = transact (.step r2) s

/-- R16, R17, R109: no instruction reads ST (FX18 only writes it), and only EX9E, EXA1 and FX0A read the keys: any other
instruction acts alike whatever they hold. -/
def Obligations.SoundTimerAndKeysAreReadByFew : Prop :=
  (∀ (i : Instr) (s t : State) (b : Byte), (∀ x, i ≠ .ldStVx x) → exec i s = .next t →
    exec i (s.setSt b) = .next (t.setSt b)) ∧
  (∀ (x : Reg) (s : State) (b : Byte), exec (.ldStVx x) (s.setSt b) = exec (.ldStVx x) s) ∧
  (∀ (i : Instr) (s t : State) (ks : Vector Bool 16),
    (∀ x, i ≠ .skp x) → (∀ x, i ≠ .sknp x) → (∀ x, i ≠ .ldVxK x) → exec i s = .next t →
    exec i { s with keys := ks } = .next { t with keys := ks })

/-- R36, R121: each byte that FX55, FX33 or `load_program` stored is the byte that any later fetch over it reads, be it one
byte of the word or both; the next step's fetch, at the pc stated, is one of them. (Blocks that fault store nothing:
BlockAccessesFault. A load after steps have run is the spec's own decision D23: log 21.) -/
def Obligations.StoredBytesAreFetched : Prop :=
  ∀ s : State, s.mem.wf = true →
    (∀ x : Reg, s.i.toNat + x.val + 1 ≤ 0x1000 → ∃ t, exec (.storeRegs x) s = .next t ∧
      t.pc = trunc16 (s.pc.toNat + 2) ∧
      FetchesOverlaid s t s.i.toNat (((List.finRange 16).take (x.val + 1)).map s.getV)) ∧
    (∀ x : Reg, s.i.toNat + 3 ≤ 0x1000 → ∃ t, exec (.ldB x) s = .next t ∧ t.pc = trunc16 (s.pc.toNat + 2) ∧
      FetchesOverlaid s t s.i.toNat
        [trunc8 ((s.getV x).toNat / 100), trunc8 ((s.getV x).toNat / 10 % 10), trunc8 ((s.getV x).toNat % 10)]) ∧
    (∀ img : List Byte, img.length ≤ 0xE00 → ∃ t, transact (.loadProgram img) s = .next (t, .loaded .ok) ∧
      t.pc = s.pc ∧ FetchesOverlaid s t 0x200 img)

/-- R125 (a), (b): once a run has ended, on a fault or at a jump to itself, any number of steps leaves the state as it
is. -/
def Obligations.EndedRunsStay : Prop :=
  ∀ s : State, Ended s → ∀ draws : List Byte, ∃ rs, run (draws.map .step) s = .next (s, rs)

/-! ### Invariants and reset -/

/-- Every step from a legal state reaches a legal state: memory stays canonical and a fault register is explained by the
state it froze (R20, R25, R99, R100). -/
def Obligations.StepKeepsStateLegal : Prop :=
  ∀ s t : State, LegalState s → step s = .next t → LegalState t

/-- Every run of transactions from a legal state, in any order (R5), reaches a legal state. -/
def Obligations.RunsKeepStateLegal : Prop :=
  ∀ (ts : List Transaction) (s t : State) (rs : List Reply), LegalState s → run ts s = .next (t, rs) → LegalState t

/-- The reset state is legal. -/
def Obligations.ResetStateIsLegal : Prop := LegalState State.reset

/-- R23: the values after reset. (All but the registers V, pc and memory are the spec's own decision D21: log 4; the font
bytes are the spec's default D19: log 3.) -/
def Obligations.ResetValues : Prop :=
  (∀ r : Reg, State.reset.getV r = 0) ∧ State.reset.i = 0 ∧ State.reset.pc = 0x200 ∧ State.reset.sp.val = 0 ∧
  (∀ k : Fin 16, State.reset.stack[k] = 0) ∧ State.reset.dt = 0 ∧ State.reset.st = 0 ∧
  (∀ k : Key, State.reset.keyDown k = false) ∧ (∀ (y : Fin 32) (x : Fin 64), State.reset.fb.cell y x = false) ∧
  State.reset.redraw = false ∧ State.reset.fault = none ∧
  (∀ a : Nat, 0x50 ≤ a → State.reset.mem.read a = 0) ∧
  State.reset.mem.readBlock 0x00 40 =
    [0xF0, 0x90, 0x90, 0x90, 0xF0, 0x20, 0x60, 0x20, 0x20, 0x70, 0xF0, 0x10, 0xF0, 0x80, 0xF0, 0xF0, 0x10, 0xF0, 0x10,
     0xF0, 0x90, 0x90, 0xF0, 0x10, 0x10, 0xF0, 0x80, 0xF0, 0x10, 0xF0, 0xF0, 0x80, 0xF0, 0x90, 0xF0, 0xF0, 0x10, 0x20,
     0x40, 0x40] ∧
  State.reset.mem.readBlock 0x28 40 =
    [0xF0, 0x90, 0xF0, 0x90, 0xF0, 0xF0, 0x90, 0xF0, 0x10, 0xF0, 0xF0, 0x90, 0xF0, 0x90, 0x90, 0xE0, 0x90, 0xE0, 0x90,
     0xE0, 0xF0, 0x80, 0x80, 0x80, 0xF0, 0xE0, 0x90, 0x90, 0x90, 0xE0, 0xF0, 0x80, 0xF0, 0x80, 0xF0, 0xF0, 0x80, 0xF0,
     0x80, 0x80]

/-- R116: after `initialize()` every piece of state holds its reset value, whatever the state was; the entry point is
0x200. (The model's draw is no state of the core: log 23.) -/
def Obligations.InitializeRestoresReset : Prop :=
  ∀ s : State, ∃ t, transact .init s = .next (t, .done) ∧ t.pc = 0x200 ∧ OnlyChanges [.draw] State.reset t

/-! ### Control transfer -/

/-- R67, R68: SE and SNE against a byte. -/
def Obligations.SkipsOnByte : Prop :=
  (∀ (x : Reg) (nn : Byte), decodeWord (trunc16 (0x3000 + 0x100 * x.val + nn.toNat)) = .ok (.seByte x nn) ∧
    decodeWord (trunc16 (0x4000 + 0x100 * x.val + nn.toNat)) = .ok (.sneByte x nn)) ∧
  (∀ (x : Reg) (nn : Byte) (s : State),
    (∃ t, exec (.seByte x nn) s = .next t ∧ OnlyChanges [.pc] s t ∧
      t.pc = trunc16 (s.pc.toNat + if (s.getV x).toNat = nn.toNat then 4 else 2)) ∧
    (∃ t, exec (.sneByte x nn) s = .next t ∧ OnlyChanges [.pc] s t ∧
      t.pc = trunc16 (s.pc.toNat + if (s.getV x).toNat = nn.toNat then 2 else 4)))

/-- R69, R70: SE and SNE of two registers, and the words 5XYn and 9XYn with n != 0, which are unknown. (That these words
are unknown is the spec's own decision D6: log 9.) -/
def Obligations.SkipsOnRegister : Prop :=
  (∀ x y : Reg, decodeWord (trunc16 (0x5000 + 0x100 * x.val + 0x10 * y.val)) = .ok (.seReg x y) ∧
    decodeWord (trunc16 (0x9000 + 0x100 * x.val + 0x10 * y.val)) = .ok (.sneReg x y)) ∧
  (∀ (x y : Reg) (n : Nat), 0 < n → n < 16 →
    (∃ e, decodeWord (trunc16 (0x5000 + 0x100 * x.val + 0x10 * y.val + n)) = .error e) ∧
    (∃ e, decodeWord (trunc16 (0x9000 + 0x100 * x.val + 0x10 * y.val + n)) = .error e)) ∧
  (∀ (x y : Reg) (s : State),
    (∃ t, exec (.seReg x y) s = .next t ∧ OnlyChanges [.pc] s t ∧
      t.pc = trunc16 (s.pc.toNat + if (s.getV x).toNat = (s.getV y).toNat then 4 else 2)) ∧
    (∃ t, exec (.sneReg x y) s = .next t ∧ OnlyChanges [.pc] s t ∧
      t.pc = trunc16 (s.pc.toNat + if (s.getV x).toNat = (s.getV y).toNat then 2 else 4)))

/-- R65, R71: JP and JP V0. The target of BNNN is the exact sum, at most 0x10FE. (No mask and any target accepted: the
spec's own decisions D12, D13: log 14.) -/
def Obligations.JumpsSetThePc : Prop :=
  (∀ nnn : Word, nnn.toNat < 0x1000 → decodeWord (trunc16 (0x1000 + nnn.toNat)) = .ok (.jp nnn) ∧
    decodeWord (trunc16 (0xB000 + nnn.toNat)) = .ok (.jpV0 nnn)) ∧
  (∀ (nnn : Word) (s : State), ∃ t, exec (.jp nnn) s = .next t ∧ OnlyChanges [.pc] s t ∧ t.pc = nnn) ∧
  (∀ (nnn : Word) (s : State), nnn.toNat < 0x1000 → ∃ t, exec (.jpV0 nnn) s = .next t ∧ OnlyChanges [.pc] s t ∧
    t.pc.toNat = nnn.toNat + (s.getV 0).toNat ∧ t.pc.toNat ≤ 0x10FE)

/-- R66: CALL pushes the address after the call and jumps; the 17th nested call raises StackOverflow and writes nothing.
(Raising is the spec's own decision D4: log 7.) -/
def Obligations.CallPushesReturnAddress : Prop :=
  (∀ nnn : Word, nnn.toNat < 0x1000 → decodeWord (trunc16 (0x2000 + nnn.toNat)) = .ok (.call nnn)) ∧
  (∀ (nnn : Word) (s : State), s.sp.val < 16 → ∃ t, exec (.call nnn) s = .next t ∧
    OnlyChanges [.pc, .sp, .stack] s t ∧ t.pc = nnn ∧ t.sp.val = s.sp.val + 1 ∧
    ∀ k : Fin 16, t.stack[k] = if k.val = s.sp.val then trunc16 (s.pc.toNat + 2) else s.stack[k]) ∧
  (∀ (nnn : Word) (s : State), s.sp.val = 16 → ∃ t, exec (.call nnn) s = .next t ∧ TakesFault .stackOverflow s t)

/-- R64: RET pops the newest entry into pc as it is and leaves the entry in place; with an empty stack it raises
StackUnderflow and writes nothing. (Raising is the spec's own decision D4: log 7.) -/
def Obligations.ReturnPopsReturnAddress : Prop :=
  decodeWord 0x00EE = .ok .ret ∧
  (∀ (s : State) (h : 0 < s.sp.val), ∃ t, exec .ret s = .next t ∧ OnlyChanges [.pc, .sp] s t ∧
    t.sp.val = s.sp.val - 1 ∧ t.pc = s.stack[s.sp.val - 1]) ∧
  (∀ s : State, s.sp.val = 0 → ∃ t, exec .ret s = .next t ∧ TakesFault .stackUnderflow s t)

/-- The property of §8 that R66 quotes: after a call, the matching RET, reached with SP and the occupied stack entries as the
call left them, continues at the call site + 2 with SP as before the call. The subroutine may have done anything else,
calls and returns of its own included: these leave their values in entries that are no longer occupied (R64). -/
def Obligations.CallThenReturnComesBack : Prop :=
  ∀ (nnn : Word) (s t u : State), s.sp.val < 16 → exec (.call nnn) s = .next t → SamePart t u .sp →
    (∀ k : Fin 16, k.val < t.sp.val → u.stack[k] = t.stack[k]) →
    ∃ w, exec .ret u = .next w ∧ w.sp.val = s.sp.val ∧ w.pc = trunc16 (s.pc.toNat + 2)

/-! ### Registers and arithmetic -/

/-- R73, R74: LD and ADD of a byte. ADD wraps modulo 256 and touches no flag. -/
def Obligations.LoadAndAddByte : Prop :=
  (∀ (x : Reg) (nn : Byte), decodeWord (trunc16 (0x6000 + 0x100 * x.val + nn.toNat)) = .ok (.ldByte x nn) ∧
    decodeWord (trunc16 (0x7000 + 0x100 * x.val + nn.toNat)) = .ok (.addByte x nn)) ∧
  (∀ (x : Reg) (nn : Byte) (s : State),
    (∃ t, exec (.ldByte x nn) s = .next t ∧ OnlyChanges [.v, .pc] s t ∧ OnlyRegs [x] s t ∧
      t.pc = trunc16 (s.pc.toNat + 2) ∧ t.getV x = nn) ∧
    (∃ t, exec (.addByte x nn) s = .next t ∧ OnlyChanges [.v, .pc] s t ∧ OnlyRegs [x] s t ∧
      t.pc = trunc16 (s.pc.toNat + 2) ∧ (t.getV x).toNat = ((s.getV x).toNat + nn.toNat) % 256))

/-- R75-R78: LD, OR, AND and XOR of two registers, bit by bit, with no flag. (That VF is not reset is the spec's own
decision D9: log 12.) -/
def Obligations.CopyAndBitwise : Prop :=
  (∀ x y : Reg, decodeWord (trunc16 (0x8000 + 0x100 * x.val + 0x10 * y.val)) = .ok (.ldReg x y) ∧
    decodeWord (trunc16 (0x8001 + 0x100 * x.val + 0x10 * y.val)) = .ok (.orReg x y) ∧
    decodeWord (trunc16 (0x8002 + 0x100 * x.val + 0x10 * y.val)) = .ok (.andReg x y) ∧
    decodeWord (trunc16 (0x8003 + 0x100 * x.val + 0x10 * y.val)) = .ok (.xorReg x y)) ∧
  (∀ (x y : Reg) (s : State),
    (∃ t, exec (.ldReg x y) s = .next t ∧ OnlyChanges [.v, .pc] s t ∧ OnlyRegs [x] s t ∧
      t.pc = trunc16 (s.pc.toNat + 2) ∧ t.getV x = s.getV y) ∧
    (∃ t, exec (.orReg x y) s = .next t ∧ OnlyChanges [.v, .pc] s t ∧ OnlyRegs [x] s t ∧
      t.pc = trunc16 (s.pc.toNat + 2) ∧
      ∀ b : Nat, (t.getV x).getLsbD b = ((s.getV x).getLsbD b || (s.getV y).getLsbD b)) ∧
    (∃ t, exec (.andReg x y) s = .next t ∧ OnlyChanges [.v, .pc] s t ∧ OnlyRegs [x] s t ∧
      t.pc = trunc16 (s.pc.toNat + 2) ∧
      ∀ b : Nat, (t.getV x).getLsbD b = ((s.getV x).getLsbD b && (s.getV y).getLsbD b)) ∧
    (∃ t, exec (.xorReg x y) s = .next t ∧ OnlyChanges [.v, .pc] s t ∧ OnlyRegs [x] s t ∧
      t.pc = trunc16 (s.pc.toNat + 2) ∧
      ∀ b : Nat, (t.getV x).getLsbD b = ((s.getV x).getLsbD b != (s.getV y).getLsbD b)))

/-- R79: ADD with the carry in VF, so with X = F the carry is what VF holds. (That VF is written last is the spec's own
decision D8: log 11.) -/
def Obligations.AddSetsCarry : Prop :=
  (∀ x y : Reg, decodeWord (trunc16 (0x8004 + 0x100 * x.val + 0x10 * y.val)) = .ok (.addReg x y)) ∧
  (∀ (x y : Reg) (s : State), ∃ t, exec (.addReg x y) s = .next t ∧ OnlyChanges [.v, .pc] s t ∧
    OnlyRegs [x, vf] s t ∧ t.pc = trunc16 (s.pc.toNat + 2) ∧
    (t.getV vf).toNat = (if (s.getV x).toNat + (s.getV y).toNat > 255 then 1 else 0) ∧
    (x ≠ vf → (t.getV x).toNat = ((s.getV x).toNat + (s.getV y).toNat) % 256))

/-- R80, R82: SUB and SUBN with 'not borrow' in VF, so with X = F the flag is what VF holds. (That VF is written last is
the spec's own decision D8: log 11.) -/
def Obligations.SubtractSetsNotBorrow : Prop :=
  (∀ x y : Reg, decodeWord (trunc16 (0x8005 + 0x100 * x.val + 0x10 * y.val)) = .ok (.subReg x y) ∧
    decodeWord (trunc16 (0x8007 + 0x100 * x.val + 0x10 * y.val)) = .ok (.subnReg x y)) ∧
  (∀ (x y : Reg) (s : State),
    (∃ t, exec (.subReg x y) s = .next t ∧ OnlyChanges [.v, .pc] s t ∧ OnlyRegs [x, vf] s t ∧
      t.pc = trunc16 (s.pc.toNat + 2) ∧
      (t.getV vf).toNat = (if (s.getV y).toNat ≤ (s.getV x).toNat then 1 else 0) ∧
      (x ≠ vf → ((t.getV x).toNat : Int) = ((s.getV x).toNat - (s.getV y).toNat : Int) % 256)) ∧
    (∃ t, exec (.subnReg x y) s = .next t ∧ OnlyChanges [.v, .pc] s t ∧ OnlyRegs [x, vf] s t ∧
      t.pc = trunc16 (s.pc.toNat + 2) ∧
      (t.getV vf).toNat = (if (s.getV x).toNat ≤ (s.getV y).toNat then 1 else 0) ∧
      (x ≠ vf → ((t.getV x).toNat : Int) = ((s.getV y).toNat - (s.getV x).toNat : Int) % 256)))

/-- R81, R83: SHR and SHL of V[X] by one, the bit shifted out in VF, Y ignored. (That V[X] is the source is the spec's
own decision D7: log 10; that VF is written last, D8: log 11.) -/
def Obligations.ShiftsMoveOneBit : Prop :=
  (∀ x y : Reg, decodeWord (trunc16 (0x8006 + 0x100 * x.val + 0x10 * y.val)) = .ok (.shr x y) ∧
    decodeWord (trunc16 (0x800E + 0x100 * x.val + 0x10 * y.val)) = .ok (.shl x y)) ∧
  (∀ (x y : Reg) (s : State),
    (∃ t, exec (.shr x y) s = .next t ∧ OnlyChanges [.v, .pc] s t ∧ OnlyRegs [x, vf] s t ∧
      t.pc = trunc16 (s.pc.toNat + 2) ∧ (t.getV vf).toNat = (s.getV x).toNat % 2 ∧
      (x ≠ vf → (t.getV x).toNat = (s.getV x).toNat / 2)) ∧
    (∃ t, exec (.shl x y) s = .next t ∧ OnlyChanges [.v, .pc] s t ∧ OnlyRegs [x, vf] s t ∧
      t.pc = trunc16 (s.pc.toNat + 2) ∧ (t.getV vf).toNat = (s.getV x).toNat / 128 ∧
      (x ≠ vf → (t.getV x).toNat = (s.getV x).toNat * 2 % 256)))

/-- R84: RND writes the draw AND NN, for every draw; `exec` reads it from the model's field `rand` (the spec's own
decision D24: log 2), and as a transaction it is the draw given with the step. -/
def Obligations.RandomIsDrawAndMask : Prop :=
  (∀ (x : Reg) (nn : Byte), decodeWord (trunc16 (0xC000 + 0x100 * x.val + nn.toNat)) = .ok (.rnd x nn)) ∧
  (∀ (x : Reg) (nn : Byte) (s : State), ∃ t, exec (.rnd x nn) s = .next t ∧ OnlyChanges [.v, .pc, .draw] s t ∧
    OnlyRegs [x] s t ∧ t.pc = trunc16 (s.pc.toNat + 2) ∧
    ∀ b : Nat, (t.getV x).getLsbD b = (s.rand.getLsbD b && nn.getLsbD b)) ∧
  (∀ (x : Reg) (nn rand : Byte) (s : State) (op : Word), s.fault = none → s.fetch = .ok op →
    decodeWord op = .ok (.rnd x nn) → ∃ t, transact (.step rand) s = .next (t, .stepped none none) ∧
      OnlyChanges [.v, .pc] s t ∧ OnlyRegs [x] s t ∧ t.getV x = rand &&& nn)

/-! ### Index register and memory transfer -/

/-- R87, R89: LD I and LD F. -/
def Obligations.IndexLoads : Prop :=
  (∀ nnn : Word, nnn.toNat < 0x1000 → decodeWord (trunc16 (0xA000 + nnn.toNat)) = .ok (.ldI nnn)) ∧
  (∀ x : Reg, decodeWord (trunc16 (0xF029 + 0x100 * x.val)) = .ok (.ldF x)) ∧
  (∀ (nnn : Word) (s : State), ∃ t, exec (.ldI nnn) s = .next t ∧ OnlyChanges [.i, .pc] s t ∧
    t.pc = trunc16 (s.pc.toNat + 2) ∧ t.i = nnn) ∧
  (∀ (x : Reg) (s : State), ∃ t, exec (.ldF x) s = .next t ∧ OnlyChanges [.i, .pc] s t ∧
    t.pc = trunc16 (s.pc.toNat + 2) ∧ t.i.toNat = (s.getV x).toNat % 16 * 5)

/-- R88: ADD I wraps modulo 65536 and writes no flag. (The spec's own decision D11: log 12.) -/
def Obligations.IndexAddition : Prop :=
  (∀ x : Reg, decodeWord (trunc16 (0xF01E + 0x100 * x.val)) = .ok (.addI x)) ∧
  (∀ (x : Reg) (s : State), ∃ t, exec (.addI x) s = .next t ∧ OnlyChanges [.i, .pc] s t ∧
    t.pc = trunc16 (s.pc.toNat + 2) ∧ t.i.toNat = (s.i.toNat + (s.getV x).toNat) % 65536)

/-- R90: LD B stores the decimal digits of V[X], hundreds at I, when the three bytes exist. -/
def Obligations.BcdIsStored : Prop :=
  (∀ x : Reg, decodeWord (trunc16 (0xF033 + 0x100 * x.val)) = .ok (.ldB x)) ∧
  (∀ (x : Reg) (s : State), s.mem.wf = true → s.i.toNat + 3 ≤ 0x1000 → ∃ t, exec (.ldB x) s = .next t ∧
    OnlyChanges [.mem, .pc] s t ∧ OnlyBytes s.i.toNat 3 s t ∧ t.pc = trunc16 (s.pc.toNat + 2) ∧
    (t.mem.read s.i.toNat).toNat * 100 + (t.mem.read (s.i.toNat + 1)).toNat * 10 +
      (t.mem.read (s.i.toNat + 2)).toNat = (s.getV x).toNat ∧
    (t.mem.read s.i.toNat).toNat < 10 ∧ (t.mem.read (s.i.toNat + 1)).toNat < 10 ∧
    (t.mem.read (s.i.toNat + 2)).toNat < 10)

/-- R91: LD [I], VX stores V0..V[X] at I when the bytes exist; I is unchanged. (The spec's own decision D10: log 13.) -/
def Obligations.RegistersAreStored : Prop :=
  (∀ x : Reg, decodeWord (trunc16 (0xF055 + 0x100 * x.val)) = .ok (.storeRegs x)) ∧
  (∀ (x : Reg) (s : State), s.mem.wf = true → s.i.toNat + x.val + 1 ≤ 0x1000 →
    ∃ t, exec (.storeRegs x) s = .next t ∧ OnlyChanges [.mem, .pc] s t ∧ OnlyBytes s.i.toNat (x.val + 1) s t ∧
      t.pc = trunc16 (s.pc.toNat + 2) ∧ ∀ k : Reg, k ≤ x → t.mem.read (s.i.toNat + k.val) = s.getV k)

/-- R92: LD VX, [I] loads V0..V[X] from I when the bytes exist; registers above X, I and memory are unchanged. (The
spec's own decision D10: log 13.) -/
def Obligations.RegistersAreLoaded : Prop :=
  (∀ x : Reg, decodeWord (trunc16 (0xF065 + 0x100 * x.val)) = .ok (.loadRegs x)) ∧
  (∀ (x : Reg) (s : State), s.i.toNat + x.val + 1 ≤ 0x1000 →
    ∃ t, exec (.loadRegs x) s = .next t ∧ OnlyChanges [.v, .pc] s t ∧ t.pc = trunc16 (s.pc.toNat + 2) ∧
      ∀ k : Reg, t.getV k = if k ≤ x then s.mem.read (s.i.toNat + k.val) else s.getV k)

/-- The round trip of §8 that R92 quotes: FX65 restores what FX55 stored with the same X and I, as long as the block's
bytes and I are left alone in between. -/
def Obligations.StoreThenLoadRestores : Prop :=
  ∀ (x : Reg) (s t u : State), s.mem.wf = true → s.i.toNat + x.val + 1 ≤ 0x1000 → exec (.storeRegs x) s = .next t →
    SamePart t u .i → (∀ k : Reg, k ≤ x → u.mem.read (s.i.toNat + k.val) = t.mem.read (s.i.toNat + k.val)) →
    ∃ w, exec (.loadRegs x) u = .next w ∧ ∀ k : Reg, k ≤ x → w.getV k = s.getV k

/-- R60, R90-R92, R27, R56: a block access that leaves the address space faults at its first address at or above 0x1000
and does nothing else. (Faulting is the spec's own decision D3: log 6.) -/
def Obligations.BlockAccessesFault : Prop :=
  ∀ (s : State),
    (∀ (x y : Reg) (n : Fin 16), 0 < n.val → 0x1000 < s.i.toNat + n.val →
      ∃ t, exec (.drw x y n) s = .next t ∧ TakesFault (.memoryFault (trunc16 (max s.i.toNat 0x1000))) s t) ∧
    (∀ x : Reg, 0x1000 < s.i.toNat + 3 →
      ∃ t, exec (.ldB x) s = .next t ∧ TakesFault (.memoryFault (trunc16 (max s.i.toNat 0x1000))) s t) ∧
    (∀ x : Reg, 0x1000 < s.i.toNat + x.val + 1 →
      (∃ t, exec (.storeRegs x) s = .next t ∧ TakesFault (.memoryFault (trunc16 (max s.i.toNat 0x1000))) s t) ∧
      (∃ t, exec (.loadRegs x) s = .next t ∧ TakesFault (.memoryFault (trunc16 (max s.i.toNat 0x1000))) s t))

/-! ### Display -/

/-- R59: CLS clears every cell and sets `redraw`, also when nothing changed. (Unconditionally: the spec's own decision
D18: log 18.) -/
def Obligations.ClearScreenClears : Prop :=
  decodeWord 0x00E0 = .ok .cls ∧
  ∀ s : State, ∃ t, exec .cls s = .next t ∧ OnlyChanges [.fb, .redraw, .pc] s t ∧ t.redraw = true ∧
    t.pc = trunc16 (s.pc.toNat + 2) ∧ ∀ (y : Fin 32) (x : Fin 64), t.fb.cell y x = false

/-- R60, R61: DRW as one picture: a cell is toggled exactly when the sprite covers it, with N = 0 drawing nothing; VF is
the collision; `redraw` is set. (Bit order, N = 0 and the unconditional `redraw` are the spec's own decisions D16, D17,
D18: log 17, log 18.) -/
def Obligations.SpriteDrawingTogglesCoveredCells : Prop :=
  (∀ (x y : Reg) (n : Fin 16), decodeWord (trunc16 (0xD000 + 0x100 * x.val + 0x10 * y.val + n.val)) = .ok (.drw x y n)) ∧
  (∀ (x y : Reg) (n : Fin 16) (s : State), n.val = 0 ∨ s.i.toNat + n.val ≤ 0x1000 →
    ∃ t, exec (.drw x y n) s = .next t ∧ OnlyChanges [.v, .fb, .redraw, .pc] s t ∧ OnlyRegs [vf] s t ∧
      t.redraw = true ∧ t.pc = trunc16 (s.pc.toNat + 2) ∧
      (∀ (row : Fin 32) (column : Fin 64),
        t.fb.cell row column ≠ s.fb.cell row column ↔ spriteCovers s x y n row column) ∧
      (t.getV vf = 0 ∨ t.getV vf = 1) ∧
      (t.getV vf = 1 ↔ ∃ row column, s.fb.cell row column = true ∧ spriteCovers s x y n row column))

/-- R62: the collision flag is 1 exactly when some cell went from 1 to 0; and drawing the same sprite twice at the same
place restores every cell, and reports a collision on the second draw when the first one set some cell and no register of
the origin is VF. (R62 asks only for a 1 bit in the sprite; where every covered cell was already set, its own collision
rule gives 0 on the second draw: log 31, the model's reading.) -/
def Obligations.CollisionIsSetToUnset : Prop :=
  (∀ (x y : Reg) (n : Fin 16) (s t : State), n.val = 0 ∨ s.i.toNat + n.val ≤ 0x1000 → exec (.drw x y n) s = .next t →
    (t.getV vf = 1 ↔ ∃ row column, s.fb.cell row column = true ∧ t.fb.cell row column = false)) ∧
  (∀ (x y : Reg) (n : Fin 16) (s t : State), x ≠ vf → y ≠ vf → n.val = 0 ∨ s.i.toNat + n.val ≤ 0x1000 →
    exec (.drw x y n) s = .next t → ∃ u, exec (.drw x y n) t = .next u ∧
      (∀ (row : Fin 32) (column : Fin 64), u.fb.cell row column = s.fb.cell row column) ∧
      (u.getV vf = 1 ↔ ∃ row column, s.fb.cell row column = false ∧ t.fb.cell row column = true))

/-- R63: `consume_frame` answers the pending flag and the frame, clears the flag and nothing else, and answers 'not
pending' when asked again; it works on a halted core. -/
def Obligations.ConsumeFrameClearsRedraw : Prop :=
  ∀ s : State, ∃ t u, run [.consumeFrame, .consumeFrame] s = .next (u, [.frame s.redraw s.fb, .frame false s.fb]) ∧
    transact .consumeFrame s = .next (t, .frame s.redraw s.fb) ∧ t.redraw = false ∧ OnlyChanges [.redraw] s t ∧ u = t

/-! ### Keys and timers -/

/-- R93, R94: SKP and SKNP test the level of the key numbered V[X], and raise KeyIndexFault(V[X]) above 15. (Raising is
the spec's own decision D14: log 15.) -/
def Obligations.SkipsOnKey : Prop :=
  (∀ x : Reg, decodeWord (trunc16 (0xE09E + 0x100 * x.val)) = .ok (.skp x) ∧
    decodeWord (trunc16 (0xE0A1 + 0x100 * x.val)) = .ok (.sknp x)) ∧
  (∀ (x : Reg) (s : State) (k : Key), (s.getV x).toNat = k.val →
    (∃ t, exec (.skp x) s = .next t ∧ OnlyChanges [.pc] s t ∧
      t.pc = trunc16 (s.pc.toNat + if s.keyDown k = true then 4 else 2)) ∧
    (∃ t, exec (.sknp x) s = .next t ∧ OnlyChanges [.pc] s t ∧
      t.pc = trunc16 (s.pc.toNat + if s.keyDown k = true then 2 else 4))) ∧
  (∀ (x : Reg) (s : State), 15 < (s.getV x).toNat →
    (∃ t, exec (.skp x) s = .next t ∧ TakesFault (.keyIndexFault (s.getV x)) s t) ∧
    (∃ t, exec (.sknp x) s = .next t ∧ TakesFault (.keyIndexFault (s.getV x)) s t))

/-- R96: LD VX, K stores the lowest pressed key and advances; with none pressed nothing changes. (The lowest key is the
spec's own decision D15: log 16.) -/
def Obligations.KeyWaitTakesLowestKey : Prop :=
  (∀ x : Reg, decodeWord (trunc16 (0xF00A + 0x100 * x.val)) = .ok (.ldVxK x)) ∧
  (∀ (x : Reg) (s : State) (k : Key), s.keyDown k = true → (∀ j : Key, j < k → s.keyDown j = false) →
    ∃ t, exec (.ldVxK x) s = .next t ∧ OnlyChanges [.v, .pc] s t ∧ OnlyRegs [x] s t ∧
      t.pc = trunc16 (s.pc.toNat + 2) ∧ (t.getV x).toNat = k.val) ∧
  (∀ (x : Reg) (s : State), (∀ k : Key, s.keyDown k = false) →
    ∃ t, exec (.ldVxK x) s = .next t ∧ OnlyChanges [] s t)

/-- R96, R123, R109: a wait with no key pressed lasts through any number of steps and ticks, the timers alone moving; the
first step after a key press ends it. -/
def Obligations.KeyWaitLastsUntilAPress : Prop :=
  ∀ (s : State) (op : Word) (x : Reg), s.fault = none → s.fetch = .ok op → decodeWord op = .ok (.ldVxK x) →
    (∀ k : Key, s.keyDown k = false) →
    (∀ ts : List Transaction, (∀ tr ∈ ts, tr = .tick ∨ ∃ rand, tr = .step rand) →
      ∃ t rs, run ts s = .next (t, rs) ∧ OnlyChanges [.dt, .st] s t) ∧
    (∀ (k : Key) (rand : Byte), ∃ t rs, run [.setKey k true, .step rand] s = .next (t, rs) ∧
      (t.getV x).toNat = k.val ∧ t.pc = trunc16 (s.pc.toNat + 2))

/-- R95, R97, R98: FX07, FX15 and FX18; after FX18 the next tick fires `sound_event` exactly when V[X] was 1, and no step
fires it. -/
def Obligations.TimerTransfers : Prop :=
  (∀ x : Reg, decodeWord (trunc16 (0xF007 + 0x100 * x.val)) = .ok (.ldVxDt x) ∧
    decodeWord (trunc16 (0xF015 + 0x100 * x.val)) = .ok (.ldDtVx x) ∧
    decodeWord (trunc16 (0xF018 + 0x100 * x.val)) = .ok (.ldStVx x)) ∧
  (∀ (x : Reg) (s : State),
    (∃ t, exec (.ldVxDt x) s = .next t ∧ OnlyChanges [.v, .pc] s t ∧ OnlyRegs [x] s t ∧
      t.pc = trunc16 (s.pc.toNat + 2) ∧ t.getV x = s.dt) ∧
    (∃ t, exec (.ldDtVx x) s = .next t ∧ OnlyChanges [.dt, .pc] s t ∧ t.pc = trunc16 (s.pc.toNat + 2) ∧
      t.dt = s.getV x) ∧
    (∃ t, exec (.ldStVx x) s = .next t ∧ OnlyChanges [.st, .pc] s t ∧ t.pc = trunc16 (s.pc.toNat + 2) ∧
      t.st = s.getV x ∧ (t.tick.2 = true ↔ (s.getV x).toNat = 1))) ∧
  (∀ (rand : Byte) (s t : State) (r : Reply) (fires : Bool), transact (.step rand) s = .next (t, r) → r ≠ .ticked fires)

/-- R107: a tick lowers each timer by one, floors at 0, touches nothing else, and fires `sound_event` exactly when ST was
1. (That DT moves first cannot be seen in the outcome: D22, log 20.) -/
def Obligations.TickCountsDown : Prop :=
  ∀ s : State, ∃ t, transact .tick s = .next (t, .ticked (decide (s.st.toNat = 1))) ∧ OnlyChanges [.dt, .st] s t ∧
    t.dt.toNat = s.dt.toNat - 1 ∧ t.st.toNat = s.st.toNat - 1

/-- R107, R108: counting down from ST = n > 0 takes n ticks, of which the last alone fires `sound_event`; no later tick
fires. -/
def Obligations.SoundEventFiresOnce : Prop :=
  ∀ (s : State) (n m : Nat), s.st.toNat = n + 1 →
    ∃ t, run (List.replicate (n + 1 + m) .tick) s =
        .next (t, List.replicate n (.ticked false) ++ .ticked true :: List.replicate m (.ticked false)) ∧
      t.st = 0

/-- R110: `set_key` sets one key to the given level and changes nothing else. (A 4-bit port: the spec's own decision
D36: log 24.) -/
def Obligations.SetKeySetsOneKey : Prop :=
  ∀ (k : Key) (pressed : Bool) (s : State), ∃ t, transact (.setKey k pressed) s = .next (t, .done) ∧
    OnlyChanges [.keys] s t ∧ ∀ j : Key, t.keyDown j = if j = k then pressed else s.keyDown j

/-! ### Load port and transactions -/

/-- R33: an image over 0xE00 bytes is refused with no state change; any other is written whole from 0x200 on and nothing
else changes (also with steps already run: the spec's own decisions D23, D35: log 21). -/
def Obligations.LoadWritesAllOrNothing : Prop :=
  ∀ (img : List Byte) (s : State),
    (img.length > 0xE00 → transact (.loadProgram img) s = .next (s, .loaded .programTooLarge)) ∧
    (img.length ≤ 0xE00 → s.mem.wf = true → ∃ t, transact (.loadProgram img) s = .next (t, .loaded .ok) ∧
      OnlyChanges [.mem] s t ∧ OnlyBytes 0x200 img.length s t ∧
      ∀ k (h : k < img.length), t.mem.read (0x200 + k) = img[k])

/-- R24: which state each kind of transaction writes. -/
def Obligations.TransactionsWriteTheirParts : Prop :=
  ∀ (tr : Transaction) (s t : State) (r : Reply), transact tr s = .next (t, r) →
    match tr with
    | .step _ => OnlyChanges [.v, .i, .pc, .sp, .stack, .dt, .st, .fb, .redraw, .mem, .fault] s t ∧
        (s.redraw = true → t.redraw = true)
    | .tick => OnlyChanges [.dt, .st] s t
    | .setKey _ _ => OnlyChanges [.keys] s t
    | .consumeFrame => OnlyChanges [.redraw] s t ∧ t.redraw = false
    | .loadProgram _ => OnlyChanges [.mem] s t ∧ ∀ a : Nat, a < 0x200 → t.mem.read a = s.mem.read a
    | .init => OnlyChanges [.draw] State.reset t
    | .registerSoundCallback => t = s
end

