-- ==== Sys2Proof/Laws/Decode.lean ====
section
/-! SUPPORT. The decode table: no word matches two rows (spec/30_encoding.md R44), so a matching row is the decoding; and
where each field of an encoded word lies (R41, R42). -/

namespace Sys2Proof

/-! ### The table is unambiguous -/

/-- Two rows that differ on a bit both of them fix. -/
def Row.Apart (r r' : Row) : Prop := r.pattern &&& (r.mask &&& r'.mask) ≠ r'.pattern &&& (r.mask &&& r'.mask)

theorem decodeTable_apart :
    decodeTable.Pairwise (fun r r' => r.pattern &&& (r.mask &&& r'.mask) ≠ r'.pattern &&& (r.mask &&& r'.mask)) := by
  decide

theorem Row.Apart.not_both {r r' : Row} (h : r.Apart r') (op : Word) (hm : r.matches op = true) :
    r'.matches op = false := by
  by_contra hc
  simp only [Row.matches, beq_iff_eq, Bool.not_eq_false] at hm hc
  apply h
  rw [← hm, ← hc]
  ext k
  simp only [BitVec.getElem_and]
  cases op[k] <;> cases r.mask[k] <;> cases r'.mask[k] <;> rfl

theorem find?_of_apart {l : List Row} (hl : l.Pairwise Row.Apart) {r : Row} (hr : r ∈ l) {op : Word}
    (hm : r.matches op = true) : l.find? (fun r => r.matches op) = some r := by
  induction l with
  | nil => simp at hr
  | cons q l ih =>
    obtain ⟨hq, hl⟩ := List.pairwise_cons.1 hl
    rcases List.mem_cons.1 hr with rfl | hr'
    · simp [hm]
    · have hne : q.matches op = false := by
        by_contra hc
        have := (hq r hr').not_both op (by simpa using hc)
        simp [hm] at this
      simp [hne, ih hl hr']

/-- A word is decoded by any row it matches. -/
theorem decodeWord_of_row {r : Row} (hr : r ∈ decodeTable) {op : Word} (hm : r.matches op = true) :
    decodeWord op = .ok (r.build op) := by
  rw [decodeWord, find?_of_apart decodeTable_apart hr hm]

/-- A decoded word matches a row that builds the instruction. -/
theorem row_of_decodeWord {op : Word} {i : Instr} (h : decodeWord op = .ok i) :
    ∃ r ∈ decodeTable, r.matches op = true ∧ r.build op = i := by
  rw [decodeWord] at h
  split at h
  · rename_i r hf
    exact ⟨r, List.mem_of_find?_eq_some hf, by simpa using List.find?_some hf, by simpa using h⟩
  · simp at h

/-- An unknown word matches no row. -/
theorem no_row_of_decodeWord {op : Word} {e : DecodeError} (h : decodeWord op = .error e) :
    e = .unknownOpcode op ∧ ∀ r ∈ decodeTable, r.matches op = false := by
  rw [decodeWord] at h
  split at h
  · simp at h
  · rename_i hf
    exact ⟨by simpa using h.symm, fun r hr => by simpa using List.find?_eq_none.1 hf r hr⟩

/-! ### Words as four nibbles -/

/-- The word with nibbles `f x y n`, the most significant first. -/
def nibbles (f x y n : BitVec 4) : Word := f ++ (x ++ (y ++ n))

theorem nibbles_toNat (f x y n : BitVec 4) :
    (nibbles f x y n).toNat = f.toNat * 0x1000 + x.toNat * 0x100 + y.toNat * 0x10 + n.toNat := by
  have hx := x.isLt
  have hy := y.isLt
  have hn := n.isLt
  have h1 : (y ++ n).toNat = y.toNat * 16 + n.toNat := by
    rw [BitVec.toNat_append, ← Nat.shiftLeft_add_eq_or_of_lt (by omega), Nat.shiftLeft_eq]
  have h2 : (x ++ (y ++ n)).toNat = x.toNat * 256 + (y.toNat * 16 + n.toNat) := by
    rw [BitVec.toNat_append, ← Nat.shiftLeft_add_eq_or_of_lt (by omega), Nat.shiftLeft_eq, h1]
  rw [nibbles, BitVec.toNat_append, ← Nat.shiftLeft_add_eq_or_of_lt (by omega), Nat.shiftLeft_eq, h2]
  omega

theorem word_eq_nibbles (op : Word) :
    op = nibbles (op.extractLsb' 12 4) (op.extractLsb' 8 4) (op.extractLsb' 4 4) (op.extractLsb' 0 4) := by
  apply BitVec.eq_of_toNat_eq
  have := op.isLt
  simp only [nibbles_toNat, BitVec.extractLsb'_toNat, Nat.shiftRight_eq_div_pow]
  omega

theorem nibbles_inj {f x y n f' x' y' n' : BitVec 4} :
    nibbles f x y n = nibbles f' x' y' n' ↔ f = f' ∧ x = x' ∧ y = y' ∧ n = n' := by
  refine ⟨fun h => ?_, fun ⟨h1, h2, h3, h4⟩ => by rw [h1, h2, h3, h4]⟩
  have e := congrArg BitVec.toNat h
  have := x.isLt; have := y.isLt; have := n.isLt
  have := x'.isLt; have := y'.isLt; have := n'.isLt
  simp only [nibbles_toNat] at e
  refine ⟨?_, ?_, ?_, ?_⟩ <;> apply BitVec.eq_of_toNat_eq <;> omega

theorem nibbles_and (f x y n f' x' y' n' : BitVec 4) :
    nibbles f x y n &&& nibbles f' x' y' n' = nibbles (f &&& f') (x &&& x') (y &&& y') (n &&& n') := by
  exact BitVec.and_append.trans (congrArg (_ ++ ·) (BitVec.and_append.trans (congrArg (_ ++ ·) BitVec.and_append)))

theorem fieldX_nibbles (f x y n : BitVec 4) : fieldX (nibbles f x y n) = x.toFin := by
  apply Fin.ext
  have := x.isLt; have := y.isLt; have := n.isLt
  simp only [fieldX, BitVec.toFin_extractLsb', Fin.val_ofNat, nibbles_toNat, Nat.shiftRight_eq_div_pow, BitVec.val_toFin]
  omega

theorem fieldY_nibbles (f x y n : BitVec 4) : fieldY (nibbles f x y n) = y.toFin := by
  apply Fin.ext
  have := x.isLt; have := y.isLt; have := n.isLt
  simp only [fieldY, BitVec.toFin_extractLsb', Fin.val_ofNat, nibbles_toNat, Nat.shiftRight_eq_div_pow, BitVec.val_toFin]
  omega

theorem fieldN_nibbles (f x y n : BitVec 4) : fieldN (nibbles f x y n) = n.toFin := by
  apply Fin.ext
  have := x.isLt; have := y.isLt; have := n.isLt
  simp only [fieldN, BitVec.toFin_extractLsb', Fin.val_ofNat, nibbles_toNat, Nat.shiftRight_eq_div_pow, BitVec.val_toFin]
  omega

theorem fieldNN_nibbles_toNat (f x y n : BitVec 4) : (fieldNN (nibbles f x y n)).toNat = y.toNat * 16 + n.toNat := by
  have := x.isLt; have := y.isLt; have := n.isLt
  simp only [fieldNN, BitVec.extractLsb'_toNat, nibbles_toNat, Nat.shiftRight_eq_div_pow]
  omega

theorem fieldNNN_nibbles_toNat (f x y n : BitVec 4) :
    (fieldNNN (nibbles f x y n)).toNat = x.toNat * 256 + y.toNat * 16 + n.toNat := by
  have := x.isLt; have := y.isLt; have := n.isLt
  simp only [fieldNNN, BitVec.toNat_setWidth, BitVec.extractLsb'_toNat, nibbles_toNat, Nat.shiftRight_eq_div_pow]
  omega

/-! ### The masks of the table -/

theorem and_ones4 (x : BitVec 4) : x &&& 15#4 = x := BitVec.and_allOnes

theorem mask_f (f x y n : BitVec 4) : nibbles f x y n &&& 0xF000 = nibbles f 0 0 0 := by
  rw [show (0xF000 : Word) = nibbles 0xF 0 0 0 from rfl, nibbles_and]
  simp [and_ones4]

theorem mask_fn (f x y n : BitVec 4) : nibbles f x y n &&& 0xF00F = nibbles f 0 0 n := by
  rw [show (0xF00F : Word) = nibbles 0xF 0 0 0xF from rfl, nibbles_and]
  simp [and_ones4]

theorem mask_fyn (f x y n : BitVec 4) : nibbles f x y n &&& 0xF0FF = nibbles f 0 y n := by
  rw [show (0xF0FF : Word) = nibbles 0xF 0 0xF 0xF from rfl, nibbles_and]
  simp [and_ones4]

theorem mask_all (f x y n : BitVec 4) : nibbles f x y n &&& 0xFFFF = nibbles f x y n := by
  rw [show (0xFFFF : Word) = nibbles 0xF 0xF 0xF 0xF from rfl, nibbles_and]
  simp [and_ones4]

/-! ### Encoded words as nibbles -/

theorem wordNNN_eq (f : Nat) (nnn : Word) :
    wordNNN f nnn = nibbles (BitVec.ofNat 4 f) (nnn.extractLsb' 8 4) (nnn.extractLsb' 4 4) (nnn.extractLsb' 0 4) := by
  apply BitVec.eq_of_toNat_eq
  have := nnn.isLt
  simp only [wordNNN, nibbles_toNat, BitVec.toNat_ofNat, BitVec.extractLsb'_toNat, Nat.shiftRight_eq_div_pow]
  omega

theorem wordXNN_eq (f : Nat) (x : Reg) (nn : Nat) (hn : nn < 256) :
    wordXNN f x nn = nibbles (BitVec.ofNat 4 f) (BitVec.ofFin x) (BitVec.ofNat 4 (nn / 16)) (BitVec.ofNat 4 nn) := by
  apply BitVec.eq_of_toNat_eq
  have := x.isLt
  simp only [wordXNN, nibbles_toNat, BitVec.toNat_ofNat, BitVec.toNat_ofFin]
  omega

theorem wordXYN_eq (f : Nat) (x y : Reg) (n : Nat) (hn : n < 16) :
    wordXYN f x y n = nibbles (BitVec.ofNat 4 f) (BitVec.ofFin x) (BitVec.ofFin y) (BitVec.ofNat 4 n) := by
  apply BitVec.eq_of_toNat_eq
  have := x.isLt; have := y.isLt
  simp only [wordXYN, nibbles_toNat, BitVec.toNat_ofNat, BitVec.toNat_ofFin]
  omega

end Sys2Proof
end

