-- ==== Sys2Proof/Laws/State.lean ====
section
/-! SUPPORT. What each update of a state does to each field, one lemma a field, and what it does to the readings
`getV`, `keyDown` and `cell`. -/

namespace Sys2Proof.Machine

/-! ### `setV` -/

@[simp] theorem State.setV_v (s : State) (x : Reg) (b : Byte) : (s.setV x b).v = s.v.set x b := rfl
@[simp] theorem State.setV_i (s : State) (x : Reg) (b : Byte) : (s.setV x b).i = s.i := rfl
@[simp] theorem State.setV_pc (s : State) (x : Reg) (b : Byte) : (s.setV x b).pc = s.pc := rfl
@[simp] theorem State.setV_sp (s : State) (x : Reg) (b : Byte) : (s.setV x b).sp = s.sp := rfl
@[simp] theorem State.setV_stack (s : State) (x : Reg) (b : Byte) : (s.setV x b).stack = s.stack := rfl
@[simp] theorem State.setV_dt (s : State) (x : Reg) (b : Byte) : (s.setV x b).dt = s.dt := rfl
@[simp] theorem State.setV_st (s : State) (x : Reg) (b : Byte) : (s.setV x b).st = s.st := rfl
@[simp] theorem State.setV_keys (s : State) (x : Reg) (b : Byte) : (s.setV x b).keys = s.keys := rfl
@[simp] theorem State.setV_fb (s : State) (x : Reg) (b : Byte) : (s.setV x b).fb = s.fb := rfl
@[simp] theorem State.setV_redraw (s : State) (x : Reg) (b : Byte) : (s.setV x b).redraw = s.redraw := rfl
@[simp] theorem State.setV_fault (s : State) (x : Reg) (b : Byte) : (s.setV x b).fault = s.fault := rfl
@[simp] theorem State.setV_mem (s : State) (x : Reg) (b : Byte) : (s.setV x b).mem = s.mem := rfl
@[simp] theorem State.setV_rand (s : State) (x : Reg) (b : Byte) : (s.setV x b).rand = s.rand := rfl
@[simp] theorem State.setV_drawIndex (s : State) (x : Reg) (b : Byte) : (s.setV x b).drawIndex = s.drawIndex := rfl
@[simp] theorem State.setV_keyDown (s : State) (x : Reg) (b : Byte) (j : Key) : (s.setV x b).keyDown j = s.keyDown j := rfl

/-! ### `setRegs` -/

@[simp] theorem State.setRegs_v (s : State) (w : Vector Byte 16) : (s.setRegs w).v = w := rfl
@[simp] theorem State.setRegs_i (s : State) (w : Vector Byte 16) : (s.setRegs w).i = s.i := rfl
@[simp] theorem State.setRegs_pc (s : State) (w : Vector Byte 16) : (s.setRegs w).pc = s.pc := rfl
@[simp] theorem State.setRegs_sp (s : State) (w : Vector Byte 16) : (s.setRegs w).sp = s.sp := rfl
@[simp] theorem State.setRegs_stack (s : State) (w : Vector Byte 16) : (s.setRegs w).stack = s.stack := rfl
@[simp] theorem State.setRegs_dt (s : State) (w : Vector Byte 16) : (s.setRegs w).dt = s.dt := rfl
@[simp] theorem State.setRegs_st (s : State) (w : Vector Byte 16) : (s.setRegs w).st = s.st := rfl
@[simp] theorem State.setRegs_keys (s : State) (w : Vector Byte 16) : (s.setRegs w).keys = s.keys := rfl
@[simp] theorem State.setRegs_fb (s : State) (w : Vector Byte 16) : (s.setRegs w).fb = s.fb := rfl
@[simp] theorem State.setRegs_redraw (s : State) (w : Vector Byte 16) : (s.setRegs w).redraw = s.redraw := rfl
@[simp] theorem State.setRegs_fault (s : State) (w : Vector Byte 16) : (s.setRegs w).fault = s.fault := rfl
@[simp] theorem State.setRegs_mem (s : State) (w : Vector Byte 16) : (s.setRegs w).mem = s.mem := rfl
@[simp] theorem State.setRegs_rand (s : State) (w : Vector Byte 16) : (s.setRegs w).rand = s.rand := rfl
@[simp] theorem State.setRegs_drawIndex (s : State) (w : Vector Byte 16) : (s.setRegs w).drawIndex = s.drawIndex := rfl
@[simp] theorem State.setRegs_keyDown (s : State) (w : Vector Byte 16) (j : Key) : (s.setRegs w).keyDown j = s.keyDown j := rfl

/-! ### `setFlag` -/

@[simp] theorem State.setFlag_v (s : State) (c : Bool) : (s.setFlag c).v = s.v.set vf (flagByte c) := rfl
@[simp] theorem State.setFlag_i (s : State) (c : Bool) : (s.setFlag c).i = s.i := rfl
@[simp] theorem State.setFlag_pc (s : State) (c : Bool) : (s.setFlag c).pc = s.pc := rfl
@[simp] theorem State.setFlag_sp (s : State) (c : Bool) : (s.setFlag c).sp = s.sp := rfl
@[simp] theorem State.setFlag_stack (s : State) (c : Bool) : (s.setFlag c).stack = s.stack := rfl
@[simp] theorem State.setFlag_dt (s : State) (c : Bool) : (s.setFlag c).dt = s.dt := rfl
@[simp] theorem State.setFlag_st (s : State) (c : Bool) : (s.setFlag c).st = s.st := rfl
@[simp] theorem State.setFlag_keys (s : State) (c : Bool) : (s.setFlag c).keys = s.keys := rfl
@[simp] theorem State.setFlag_fb (s : State) (c : Bool) : (s.setFlag c).fb = s.fb := rfl
@[simp] theorem State.setFlag_redraw (s : State) (c : Bool) : (s.setFlag c).redraw = s.redraw := rfl
@[simp] theorem State.setFlag_fault (s : State) (c : Bool) : (s.setFlag c).fault = s.fault := rfl
@[simp] theorem State.setFlag_mem (s : State) (c : Bool) : (s.setFlag c).mem = s.mem := rfl
@[simp] theorem State.setFlag_rand (s : State) (c : Bool) : (s.setFlag c).rand = s.rand := rfl
@[simp] theorem State.setFlag_drawIndex (s : State) (c : Bool) : (s.setFlag c).drawIndex = s.drawIndex := rfl
@[simp] theorem State.setFlag_keyDown (s : State) (c : Bool) (j : Key) : (s.setFlag c).keyDown j = s.keyDown j := rfl

/-! ### `setResultAndFlag` -/

@[simp] theorem State.setResultAndFlag_v (s : State) (x : Reg) (b : Byte) (c : Bool) : (s.setResultAndFlag x b c).v = (s.v.set x b).set vf (flagByte c) := rfl
@[simp] theorem State.setResultAndFlag_i (s : State) (x : Reg) (b : Byte) (c : Bool) : (s.setResultAndFlag x b c).i = s.i := rfl
@[simp] theorem State.setResultAndFlag_pc (s : State) (x : Reg) (b : Byte) (c : Bool) : (s.setResultAndFlag x b c).pc = s.pc := rfl
@[simp] theorem State.setResultAndFlag_sp (s : State) (x : Reg) (b : Byte) (c : Bool) : (s.setResultAndFlag x b c).sp = s.sp := rfl
@[simp] theorem State.setResultAndFlag_stack (s : State) (x : Reg) (b : Byte) (c : Bool) : (s.setResultAndFlag x b c).stack = s.stack := rfl
@[simp] theorem State.setResultAndFlag_dt (s : State) (x : Reg) (b : Byte) (c : Bool) : (s.setResultAndFlag x b c).dt = s.dt := rfl
@[simp] theorem State.setResultAndFlag_st (s : State) (x : Reg) (b : Byte) (c : Bool) : (s.setResultAndFlag x b c).st = s.st := rfl
@[simp] theorem State.setResultAndFlag_keys (s : State) (x : Reg) (b : Byte) (c : Bool) : (s.setResultAndFlag x b c).keys = s.keys := rfl
@[simp] theorem State.setResultAndFlag_fb (s : State) (x : Reg) (b : Byte) (c : Bool) : (s.setResultAndFlag x b c).fb = s.fb := rfl
@[simp] theorem State.setResultAndFlag_redraw (s : State) (x : Reg) (b : Byte) (c : Bool) : (s.setResultAndFlag x b c).redraw = s.redraw := rfl
@[simp] theorem State.setResultAndFlag_fault (s : State) (x : Reg) (b : Byte) (c : Bool) : (s.setResultAndFlag x b c).fault = s.fault := rfl
@[simp] theorem State.setResultAndFlag_mem (s : State) (x : Reg) (b : Byte) (c : Bool) : (s.setResultAndFlag x b c).mem = s.mem := rfl
@[simp] theorem State.setResultAndFlag_rand (s : State) (x : Reg) (b : Byte) (c : Bool) : (s.setResultAndFlag x b c).rand = s.rand := rfl
@[simp] theorem State.setResultAndFlag_drawIndex (s : State) (x : Reg) (b : Byte) (c : Bool) : (s.setResultAndFlag x b c).drawIndex = s.drawIndex := rfl
@[simp] theorem State.setResultAndFlag_keyDown (s : State) (x : Reg) (b : Byte) (c : Bool) (j : Key) : (s.setResultAndFlag x b c).keyDown j = s.keyDown j := rfl

/-! ### `setI` -/

@[simp] theorem State.setI_v (s : State) (w : Word) : (s.setI w).v = s.v := rfl
@[simp] theorem State.setI_i (s : State) (w : Word) : (s.setI w).i = w := rfl
@[simp] theorem State.setI_pc (s : State) (w : Word) : (s.setI w).pc = s.pc := rfl
@[simp] theorem State.setI_sp (s : State) (w : Word) : (s.setI w).sp = s.sp := rfl
@[simp] theorem State.setI_stack (s : State) (w : Word) : (s.setI w).stack = s.stack := rfl
@[simp] theorem State.setI_dt (s : State) (w : Word) : (s.setI w).dt = s.dt := rfl
@[simp] theorem State.setI_st (s : State) (w : Word) : (s.setI w).st = s.st := rfl
@[simp] theorem State.setI_keys (s : State) (w : Word) : (s.setI w).keys = s.keys := rfl
@[simp] theorem State.setI_fb (s : State) (w : Word) : (s.setI w).fb = s.fb := rfl
@[simp] theorem State.setI_redraw (s : State) (w : Word) : (s.setI w).redraw = s.redraw := rfl
@[simp] theorem State.setI_fault (s : State) (w : Word) : (s.setI w).fault = s.fault := rfl
@[simp] theorem State.setI_mem (s : State) (w : Word) : (s.setI w).mem = s.mem := rfl
@[simp] theorem State.setI_rand (s : State) (w : Word) : (s.setI w).rand = s.rand := rfl
@[simp] theorem State.setI_drawIndex (s : State) (w : Word) : (s.setI w).drawIndex = s.drawIndex := rfl
@[simp] theorem State.setI_getV (s : State) (w : Word) (r : Reg) : (s.setI w).getV r = s.getV r := rfl
@[simp] theorem State.setI_keyDown (s : State) (w : Word) (j : Key) : (s.setI w).keyDown j = s.keyDown j := rfl

/-! ### `advance` -/

@[simp] theorem State.advance_v (s : State) (n : Nat) : (s.advance n).v = s.v := rfl
@[simp] theorem State.advance_i (s : State) (n : Nat) : (s.advance n).i = s.i := rfl
@[simp] theorem State.advance_pc (s : State) (n : Nat) : (s.advance n).pc = trunc16 (s.pc.toNat + n) := rfl
@[simp] theorem State.advance_sp (s : State) (n : Nat) : (s.advance n).sp = s.sp := rfl
@[simp] theorem State.advance_stack (s : State) (n : Nat) : (s.advance n).stack = s.stack := rfl
@[simp] theorem State.advance_dt (s : State) (n : Nat) : (s.advance n).dt = s.dt := rfl
@[simp] theorem State.advance_st (s : State) (n : Nat) : (s.advance n).st = s.st := rfl
@[simp] theorem State.advance_keys (s : State) (n : Nat) : (s.advance n).keys = s.keys := rfl
@[simp] theorem State.advance_fb (s : State) (n : Nat) : (s.advance n).fb = s.fb := rfl
@[simp] theorem State.advance_redraw (s : State) (n : Nat) : (s.advance n).redraw = s.redraw := rfl
@[simp] theorem State.advance_fault (s : State) (n : Nat) : (s.advance n).fault = s.fault := rfl
@[simp] theorem State.advance_mem (s : State) (n : Nat) : (s.advance n).mem = s.mem := rfl
@[simp] theorem State.advance_rand (s : State) (n : Nat) : (s.advance n).rand = s.rand := rfl
@[simp] theorem State.advance_drawIndex (s : State) (n : Nat) : (s.advance n).drawIndex = s.drawIndex := rfl
@[simp] theorem State.advance_getV (s : State) (n : Nat) (r : Reg) : (s.advance n).getV r = s.getV r := rfl
@[simp] theorem State.advance_keyDown (s : State) (n : Nat) (j : Key) : (s.advance n).keyDown j = s.keyDown j := rfl

/-! ### `jump` -/

@[simp] theorem State.jump_v (s : State) (w : Word) : (s.jump w).v = s.v := rfl
@[simp] theorem State.jump_i (s : State) (w : Word) : (s.jump w).i = s.i := rfl
@[simp] theorem State.jump_pc (s : State) (w : Word) : (s.jump w).pc = w := rfl
@[simp] theorem State.jump_sp (s : State) (w : Word) : (s.jump w).sp = s.sp := rfl
@[simp] theorem State.jump_stack (s : State) (w : Word) : (s.jump w).stack = s.stack := rfl
@[simp] theorem State.jump_dt (s : State) (w : Word) : (s.jump w).dt = s.dt := rfl
@[simp] theorem State.jump_st (s : State) (w : Word) : (s.jump w).st = s.st := rfl
@[simp] theorem State.jump_keys (s : State) (w : Word) : (s.jump w).keys = s.keys := rfl
@[simp] theorem State.jump_fb (s : State) (w : Word) : (s.jump w).fb = s.fb := rfl
@[simp] theorem State.jump_redraw (s : State) (w : Word) : (s.jump w).redraw = s.redraw := rfl
@[simp] theorem State.jump_fault (s : State) (w : Word) : (s.jump w).fault = s.fault := rfl
@[simp] theorem State.jump_mem (s : State) (w : Word) : (s.jump w).mem = s.mem := rfl
@[simp] theorem State.jump_rand (s : State) (w : Word) : (s.jump w).rand = s.rand := rfl
@[simp] theorem State.jump_drawIndex (s : State) (w : Word) : (s.jump w).drawIndex = s.drawIndex := rfl
@[simp] theorem State.jump_getV (s : State) (w : Word) (r : Reg) : (s.jump w).getV r = s.getV r := rfl
@[simp] theorem State.jump_keyDown (s : State) (w : Word) (j : Key) : (s.jump w).keyDown j = s.keyDown j := rfl

/-! ### `skipIf` -/

@[simp] theorem State.skipIf_v (s : State) (c : Bool) : (s.skipIf c).v = s.v := by cases c <;> rfl
@[simp] theorem State.skipIf_i (s : State) (c : Bool) : (s.skipIf c).i = s.i := by cases c <;> rfl
@[simp] theorem State.skipIf_pc (s : State) (c : Bool) : (s.skipIf c).pc = if c then trunc16 (s.pc.toNat + 4) else trunc16 (s.pc.toNat + 2) := by cases c <;> rfl
@[simp] theorem State.skipIf_sp (s : State) (c : Bool) : (s.skipIf c).sp = s.sp := by cases c <;> rfl
@[simp] theorem State.skipIf_stack (s : State) (c : Bool) : (s.skipIf c).stack = s.stack := by cases c <;> rfl
@[simp] theorem State.skipIf_dt (s : State) (c : Bool) : (s.skipIf c).dt = s.dt := by cases c <;> rfl
@[simp] theorem State.skipIf_st (s : State) (c : Bool) : (s.skipIf c).st = s.st := by cases c <;> rfl
@[simp] theorem State.skipIf_keys (s : State) (c : Bool) : (s.skipIf c).keys = s.keys := by cases c <;> rfl
@[simp] theorem State.skipIf_fb (s : State) (c : Bool) : (s.skipIf c).fb = s.fb := by cases c <;> rfl
@[simp] theorem State.skipIf_redraw (s : State) (c : Bool) : (s.skipIf c).redraw = s.redraw := by cases c <;> rfl
@[simp] theorem State.skipIf_fault (s : State) (c : Bool) : (s.skipIf c).fault = s.fault := by cases c <;> rfl
@[simp] theorem State.skipIf_mem (s : State) (c : Bool) : (s.skipIf c).mem = s.mem := by cases c <;> rfl
@[simp] theorem State.skipIf_rand (s : State) (c : Bool) : (s.skipIf c).rand = s.rand := by cases c <;> rfl
@[simp] theorem State.skipIf_drawIndex (s : State) (c : Bool) : (s.skipIf c).drawIndex = s.drawIndex := by cases c <;> rfl
@[simp] theorem State.skipIf_getV (s : State) (c : Bool) (r : Reg) : (s.skipIf c).getV r = s.getV r := by cases c <;> rfl
@[simp] theorem State.skipIf_keyDown (s : State) (c : Bool) (j : Key) : (s.skipIf c).keyDown j = s.keyDown j := by cases c <;> rfl

/-! ### `skipUnknown` -/

@[simp] theorem State.skipUnknown_v (s : State) : (s.skipUnknown).v = s.v := rfl
@[simp] theorem State.skipUnknown_i (s : State) : (s.skipUnknown).i = s.i := rfl
@[simp] theorem State.skipUnknown_pc (s : State) : (s.skipUnknown).pc = trunc16 (s.pc.toNat + 2) := rfl
@[simp] theorem State.skipUnknown_sp (s : State) : (s.skipUnknown).sp = s.sp := rfl
@[simp] theorem State.skipUnknown_stack (s : State) : (s.skipUnknown).stack = s.stack := rfl
@[simp] theorem State.skipUnknown_dt (s : State) : (s.skipUnknown).dt = s.dt := rfl
@[simp] theorem State.skipUnknown_st (s : State) : (s.skipUnknown).st = s.st := rfl
@[simp] theorem State.skipUnknown_keys (s : State) : (s.skipUnknown).keys = s.keys := rfl
@[simp] theorem State.skipUnknown_fb (s : State) : (s.skipUnknown).fb = s.fb := rfl
@[simp] theorem State.skipUnknown_redraw (s : State) : (s.skipUnknown).redraw = s.redraw := rfl
@[simp] theorem State.skipUnknown_fault (s : State) : (s.skipUnknown).fault = s.fault := rfl
@[simp] theorem State.skipUnknown_mem (s : State) : (s.skipUnknown).mem = s.mem := rfl
@[simp] theorem State.skipUnknown_rand (s : State) : (s.skipUnknown).rand = s.rand := rfl
@[simp] theorem State.skipUnknown_drawIndex (s : State) : (s.skipUnknown).drawIndex = s.drawIndex := rfl
@[simp] theorem State.skipUnknown_getV (s : State) (r : Reg) : (s.skipUnknown).getV r = s.getV r := rfl
@[simp] theorem State.skipUnknown_keyDown (s : State) (j : Key) : (s.skipUnknown).keyDown j = s.keyDown j := rfl

/-! ### `setSp` -/

@[simp] theorem State.setSp_v (s : State) (n : Fin 17) : (s.setSp n).v = s.v := rfl
@[simp] theorem State.setSp_i (s : State) (n : Fin 17) : (s.setSp n).i = s.i := rfl
@[simp] theorem State.setSp_pc (s : State) (n : Fin 17) : (s.setSp n).pc = s.pc := rfl
@[simp] theorem State.setSp_sp (s : State) (n : Fin 17) : (s.setSp n).sp = n := rfl
@[simp] theorem State.setSp_stack (s : State) (n : Fin 17) : (s.setSp n).stack = s.stack := rfl
@[simp] theorem State.setSp_dt (s : State) (n : Fin 17) : (s.setSp n).dt = s.dt := rfl
@[simp] theorem State.setSp_st (s : State) (n : Fin 17) : (s.setSp n).st = s.st := rfl
@[simp] theorem State.setSp_keys (s : State) (n : Fin 17) : (s.setSp n).keys = s.keys := rfl
@[simp] theorem State.setSp_fb (s : State) (n : Fin 17) : (s.setSp n).fb = s.fb := rfl
@[simp] theorem State.setSp_redraw (s : State) (n : Fin 17) : (s.setSp n).redraw = s.redraw := rfl
@[simp] theorem State.setSp_fault (s : State) (n : Fin 17) : (s.setSp n).fault = s.fault := rfl
@[simp] theorem State.setSp_mem (s : State) (n : Fin 17) : (s.setSp n).mem = s.mem := rfl
@[simp] theorem State.setSp_rand (s : State) (n : Fin 17) : (s.setSp n).rand = s.rand := rfl
@[simp] theorem State.setSp_drawIndex (s : State) (n : Fin 17) : (s.setSp n).drawIndex = s.drawIndex := rfl
@[simp] theorem State.setSp_getV (s : State) (n : Fin 17) (r : Reg) : (s.setSp n).getV r = s.getV r := rfl
@[simp] theorem State.setSp_keyDown (s : State) (n : Fin 17) (j : Key) : (s.setSp n).keyDown j = s.keyDown j := rfl

/-! ### `setEntry` -/

@[simp] theorem State.setEntry_v (s : State) (k : Fin 16) (w : Word) : (s.setEntry k w).v = s.v := rfl
@[simp] theorem State.setEntry_i (s : State) (k : Fin 16) (w : Word) : (s.setEntry k w).i = s.i := rfl
@[simp] theorem State.setEntry_pc (s : State) (k : Fin 16) (w : Word) : (s.setEntry k w).pc = s.pc := rfl
@[simp] theorem State.setEntry_sp (s : State) (k : Fin 16) (w : Word) : (s.setEntry k w).sp = s.sp := rfl
@[simp] theorem State.setEntry_stack (s : State) (k : Fin 16) (w : Word) : (s.setEntry k w).stack = s.stack.set k w := rfl
@[simp] theorem State.setEntry_dt (s : State) (k : Fin 16) (w : Word) : (s.setEntry k w).dt = s.dt := rfl
@[simp] theorem State.setEntry_st (s : State) (k : Fin 16) (w : Word) : (s.setEntry k w).st = s.st := rfl
@[simp] theorem State.setEntry_keys (s : State) (k : Fin 16) (w : Word) : (s.setEntry k w).keys = s.keys := rfl
@[simp] theorem State.setEntry_fb (s : State) (k : Fin 16) (w : Word) : (s.setEntry k w).fb = s.fb := rfl
@[simp] theorem State.setEntry_redraw (s : State) (k : Fin 16) (w : Word) : (s.setEntry k w).redraw = s.redraw := rfl
@[simp] theorem State.setEntry_fault (s : State) (k : Fin 16) (w : Word) : (s.setEntry k w).fault = s.fault := rfl
@[simp] theorem State.setEntry_mem (s : State) (k : Fin 16) (w : Word) : (s.setEntry k w).mem = s.mem := rfl
@[simp] theorem State.setEntry_rand (s : State) (k : Fin 16) (w : Word) : (s.setEntry k w).rand = s.rand := rfl
@[simp] theorem State.setEntry_drawIndex (s : State) (k : Fin 16) (w : Word) : (s.setEntry k w).drawIndex = s.drawIndex := rfl
@[simp] theorem State.setEntry_getV (s : State) (k : Fin 16) (w : Word) (r : Reg) : (s.setEntry k w).getV r = s.getV r := rfl
@[simp] theorem State.setEntry_keyDown (s : State) (k : Fin 16) (w : Word) (j : Key) : (s.setEntry k w).keyDown j = s.keyDown j := rfl

/-! ### `setDt` -/

@[simp] theorem State.setDt_v (s : State) (b : Byte) : (s.setDt b).v = s.v := rfl
@[simp] theorem State.setDt_i (s : State) (b : Byte) : (s.setDt b).i = s.i := rfl
@[simp] theorem State.setDt_pc (s : State) (b : Byte) : (s.setDt b).pc = s.pc := rfl
@[simp] theorem State.setDt_sp (s : State) (b : Byte) : (s.setDt b).sp = s.sp := rfl
@[simp] theorem State.setDt_stack (s : State) (b : Byte) : (s.setDt b).stack = s.stack := rfl
@[simp] theorem State.setDt_dt (s : State) (b : Byte) : (s.setDt b).dt = b := rfl
@[simp] theorem State.setDt_st (s : State) (b : Byte) : (s.setDt b).st = s.st := rfl
@[simp] theorem State.setDt_keys (s : State) (b : Byte) : (s.setDt b).keys = s.keys := rfl
@[simp] theorem State.setDt_fb (s : State) (b : Byte) : (s.setDt b).fb = s.fb := rfl
@[simp] theorem State.setDt_redraw (s : State) (b : Byte) : (s.setDt b).redraw = s.redraw := rfl
@[simp] theorem State.setDt_fault (s : State) (b : Byte) : (s.setDt b).fault = s.fault := rfl
@[simp] theorem State.setDt_mem (s : State) (b : Byte) : (s.setDt b).mem = s.mem := rfl
@[simp] theorem State.setDt_rand (s : State) (b : Byte) : (s.setDt b).rand = s.rand := rfl
@[simp] theorem State.setDt_drawIndex (s : State) (b : Byte) : (s.setDt b).drawIndex = s.drawIndex := rfl
@[simp] theorem State.setDt_getV (s : State) (b : Byte) (r : Reg) : (s.setDt b).getV r = s.getV r := rfl
@[simp] theorem State.setDt_keyDown (s : State) (b : Byte) (j : Key) : (s.setDt b).keyDown j = s.keyDown j := rfl

/-! ### `setSt` -/

@[simp] theorem State.setSt_v (s : State) (b : Byte) : (s.setSt b).v = s.v := rfl
@[simp] theorem State.setSt_i (s : State) (b : Byte) : (s.setSt b).i = s.i := rfl
@[simp] theorem State.setSt_pc (s : State) (b : Byte) : (s.setSt b).pc = s.pc := rfl
@[simp] theorem State.setSt_sp (s : State) (b : Byte) : (s.setSt b).sp = s.sp := rfl
@[simp] theorem State.setSt_stack (s : State) (b : Byte) : (s.setSt b).stack = s.stack := rfl
@[simp] theorem State.setSt_dt (s : State) (b : Byte) : (s.setSt b).dt = s.dt := rfl
@[simp] theorem State.setSt_st (s : State) (b : Byte) : (s.setSt b).st = b := rfl
@[simp] theorem State.setSt_keys (s : State) (b : Byte) : (s.setSt b).keys = s.keys := rfl
@[simp] theorem State.setSt_fb (s : State) (b : Byte) : (s.setSt b).fb = s.fb := rfl
@[simp] theorem State.setSt_redraw (s : State) (b : Byte) : (s.setSt b).redraw = s.redraw := rfl
@[simp] theorem State.setSt_fault (s : State) (b : Byte) : (s.setSt b).fault = s.fault := rfl
@[simp] theorem State.setSt_mem (s : State) (b : Byte) : (s.setSt b).mem = s.mem := rfl
@[simp] theorem State.setSt_rand (s : State) (b : Byte) : (s.setSt b).rand = s.rand := rfl
@[simp] theorem State.setSt_drawIndex (s : State) (b : Byte) : (s.setSt b).drawIndex = s.drawIndex := rfl
@[simp] theorem State.setSt_getV (s : State) (b : Byte) (r : Reg) : (s.setSt b).getV r = s.getV r := rfl
@[simp] theorem State.setSt_keyDown (s : State) (b : Byte) (j : Key) : (s.setSt b).keyDown j = s.keyDown j := rfl

/-! ### `setKey` -/

@[simp] theorem State.setKey_v (s : State) (k : Key) (c : Bool) : (s.setKey k c).v = s.v := rfl
@[simp] theorem State.setKey_i (s : State) (k : Key) (c : Bool) : (s.setKey k c).i = s.i := rfl
@[simp] theorem State.setKey_pc (s : State) (k : Key) (c : Bool) : (s.setKey k c).pc = s.pc := rfl
@[simp] theorem State.setKey_sp (s : State) (k : Key) (c : Bool) : (s.setKey k c).sp = s.sp := rfl
@[simp] theorem State.setKey_stack (s : State) (k : Key) (c : Bool) : (s.setKey k c).stack = s.stack := rfl
@[simp] theorem State.setKey_dt (s : State) (k : Key) (c : Bool) : (s.setKey k c).dt = s.dt := rfl
@[simp] theorem State.setKey_st (s : State) (k : Key) (c : Bool) : (s.setKey k c).st = s.st := rfl
@[simp] theorem State.setKey_keys (s : State) (k : Key) (c : Bool) : (s.setKey k c).keys = s.keys.set k c := rfl
@[simp] theorem State.setKey_fb (s : State) (k : Key) (c : Bool) : (s.setKey k c).fb = s.fb := rfl
@[simp] theorem State.setKey_redraw (s : State) (k : Key) (c : Bool) : (s.setKey k c).redraw = s.redraw := rfl
@[simp] theorem State.setKey_fault (s : State) (k : Key) (c : Bool) : (s.setKey k c).fault = s.fault := rfl
@[simp] theorem State.setKey_mem (s : State) (k : Key) (c : Bool) : (s.setKey k c).mem = s.mem := rfl
@[simp] theorem State.setKey_rand (s : State) (k : Key) (c : Bool) : (s.setKey k c).rand = s.rand := rfl
@[simp] theorem State.setKey_drawIndex (s : State) (k : Key) (c : Bool) : (s.setKey k c).drawIndex = s.drawIndex := rfl
@[simp] theorem State.setKey_getV (s : State) (k : Key) (c : Bool) (r : Reg) : (s.setKey k c).getV r = s.getV r := rfl

/-! ### `show` -/

@[simp] theorem State.show_v (s : State) (g : Framebuffer) : (s.show g).v = s.v := rfl
@[simp] theorem State.show_i (s : State) (g : Framebuffer) : (s.show g).i = s.i := rfl
@[simp] theorem State.show_pc (s : State) (g : Framebuffer) : (s.show g).pc = s.pc := rfl
@[simp] theorem State.show_sp (s : State) (g : Framebuffer) : (s.show g).sp = s.sp := rfl
@[simp] theorem State.show_stack (s : State) (g : Framebuffer) : (s.show g).stack = s.stack := rfl
@[simp] theorem State.show_dt (s : State) (g : Framebuffer) : (s.show g).dt = s.dt := rfl
@[simp] theorem State.show_st (s : State) (g : Framebuffer) : (s.show g).st = s.st := rfl
@[simp] theorem State.show_keys (s : State) (g : Framebuffer) : (s.show g).keys = s.keys := rfl
@[simp] theorem State.show_fb (s : State) (g : Framebuffer) : (s.show g).fb = g := rfl
@[simp] theorem State.show_redraw (s : State) (g : Framebuffer) : (s.show g).redraw = true := rfl
@[simp] theorem State.show_fault (s : State) (g : Framebuffer) : (s.show g).fault = s.fault := rfl
@[simp] theorem State.show_mem (s : State) (g : Framebuffer) : (s.show g).mem = s.mem := rfl
@[simp] theorem State.show_rand (s : State) (g : Framebuffer) : (s.show g).rand = s.rand := rfl
@[simp] theorem State.show_drawIndex (s : State) (g : Framebuffer) : (s.show g).drawIndex = s.drawIndex := rfl
@[simp] theorem State.show_getV (s : State) (g : Framebuffer) (r : Reg) : (s.show g).getV r = s.getV r := rfl
@[simp] theorem State.show_keyDown (s : State) (g : Framebuffer) (j : Key) : (s.show g).keyDown j = s.keyDown j := rfl

/-! ### `clearRedraw` -/

@[simp] theorem State.clearRedraw_v (s : State) : (s.clearRedraw).v = s.v := rfl
@[simp] theorem State.clearRedraw_i (s : State) : (s.clearRedraw).i = s.i := rfl
@[simp] theorem State.clearRedraw_pc (s : State) : (s.clearRedraw).pc = s.pc := rfl
@[simp] theorem State.clearRedraw_sp (s : State) : (s.clearRedraw).sp = s.sp := rfl
@[simp] theorem State.clearRedraw_stack (s : State) : (s.clearRedraw).stack = s.stack := rfl
@[simp] theorem State.clearRedraw_dt (s : State) : (s.clearRedraw).dt = s.dt := rfl
@[simp] theorem State.clearRedraw_st (s : State) : (s.clearRedraw).st = s.st := rfl
@[simp] theorem State.clearRedraw_keys (s : State) : (s.clearRedraw).keys = s.keys := rfl
@[simp] theorem State.clearRedraw_fb (s : State) : (s.clearRedraw).fb = s.fb := rfl
@[simp] theorem State.clearRedraw_redraw (s : State) : (s.clearRedraw).redraw = false := rfl
@[simp] theorem State.clearRedraw_fault (s : State) : (s.clearRedraw).fault = s.fault := rfl
@[simp] theorem State.clearRedraw_mem (s : State) : (s.clearRedraw).mem = s.mem := rfl
@[simp] theorem State.clearRedraw_rand (s : State) : (s.clearRedraw).rand = s.rand := rfl
@[simp] theorem State.clearRedraw_drawIndex (s : State) : (s.clearRedraw).drawIndex = s.drawIndex := rfl
@[simp] theorem State.clearRedraw_getV (s : State) (r : Reg) : (s.clearRedraw).getV r = s.getV r := rfl
@[simp] theorem State.clearRedraw_keyDown (s : State) (j : Key) : (s.clearRedraw).keyDown j = s.keyDown j := rfl

/-! ### `raise` -/

@[simp] theorem State.raise_v (s : State) (f : Fault) : (s.raise f).v = s.v := rfl
@[simp] theorem State.raise_i (s : State) (f : Fault) : (s.raise f).i = s.i := rfl
@[simp] theorem State.raise_pc (s : State) (f : Fault) : (s.raise f).pc = s.pc := rfl
@[simp] theorem State.raise_sp (s : State) (f : Fault) : (s.raise f).sp = s.sp := rfl
@[simp] theorem State.raise_stack (s : State) (f : Fault) : (s.raise f).stack = s.stack := rfl
@[simp] theorem State.raise_dt (s : State) (f : Fault) : (s.raise f).dt = s.dt := rfl
@[simp] theorem State.raise_st (s : State) (f : Fault) : (s.raise f).st = s.st := rfl
@[simp] theorem State.raise_keys (s : State) (f : Fault) : (s.raise f).keys = s.keys := rfl
@[simp] theorem State.raise_fb (s : State) (f : Fault) : (s.raise f).fb = s.fb := rfl
@[simp] theorem State.raise_redraw (s : State) (f : Fault) : (s.raise f).redraw = s.redraw := rfl
@[simp] theorem State.raise_fault (s : State) (f : Fault) : (s.raise f).fault = some f := rfl
@[simp] theorem State.raise_mem (s : State) (f : Fault) : (s.raise f).mem = s.mem := rfl
@[simp] theorem State.raise_rand (s : State) (f : Fault) : (s.raise f).rand = s.rand := rfl
@[simp] theorem State.raise_drawIndex (s : State) (f : Fault) : (s.raise f).drawIndex = s.drawIndex := rfl
@[simp] theorem State.raise_getV (s : State) (f : Fault) (r : Reg) : (s.raise f).getV r = s.getV r := rfl
@[simp] theorem State.raise_keyDown (s : State) (f : Fault) (j : Key) : (s.raise f).keyDown j = s.keyDown j := rfl

/-! ### `storeBlock` -/

@[simp] theorem State.storeBlock_v (s : State) (bs : List Byte) : (s.storeBlock bs).v = s.v := rfl
@[simp] theorem State.storeBlock_i (s : State) (bs : List Byte) : (s.storeBlock bs).i = s.i := rfl
@[simp] theorem State.storeBlock_pc (s : State) (bs : List Byte) : (s.storeBlock bs).pc = s.pc := rfl
@[simp] theorem State.storeBlock_sp (s : State) (bs : List Byte) : (s.storeBlock bs).sp = s.sp := rfl
@[simp] theorem State.storeBlock_stack (s : State) (bs : List Byte) : (s.storeBlock bs).stack = s.stack := rfl
@[simp] theorem State.storeBlock_dt (s : State) (bs : List Byte) : (s.storeBlock bs).dt = s.dt := rfl
@[simp] theorem State.storeBlock_st (s : State) (bs : List Byte) : (s.storeBlock bs).st = s.st := rfl
@[simp] theorem State.storeBlock_keys (s : State) (bs : List Byte) : (s.storeBlock bs).keys = s.keys := rfl
@[simp] theorem State.storeBlock_fb (s : State) (bs : List Byte) : (s.storeBlock bs).fb = s.fb := rfl
@[simp] theorem State.storeBlock_redraw (s : State) (bs : List Byte) : (s.storeBlock bs).redraw = s.redraw := rfl
@[simp] theorem State.storeBlock_fault (s : State) (bs : List Byte) : (s.storeBlock bs).fault = s.fault := rfl
@[simp] theorem State.storeBlock_mem (s : State) (bs : List Byte) : (s.storeBlock bs).mem = s.mem.writeBlock s.blockBase bs := rfl
@[simp] theorem State.storeBlock_rand (s : State) (bs : List Byte) : (s.storeBlock bs).rand = s.rand := rfl
@[simp] theorem State.storeBlock_drawIndex (s : State) (bs : List Byte) : (s.storeBlock bs).drawIndex = s.drawIndex := rfl
@[simp] theorem State.storeBlock_getV (s : State) (bs : List Byte) (r : Reg) : (s.storeBlock bs).getV r = s.getV r := rfl
@[simp] theorem State.storeBlock_keyDown (s : State) (bs : List Byte) (j : Key) : (s.storeBlock bs).keyDown j = s.keyDown j := rfl

/-! ### `placeWord` -/

@[simp] theorem State.placeWord_v (s : State) (op : Word) : (s.placeWord op).v = s.v := rfl
@[simp] theorem State.placeWord_i (s : State) (op : Word) : (s.placeWord op).i = s.i := rfl
@[simp] theorem State.placeWord_pc (s : State) (op : Word) : (s.placeWord op).pc = s.pc := rfl
@[simp] theorem State.placeWord_sp (s : State) (op : Word) : (s.placeWord op).sp = s.sp := rfl
@[simp] theorem State.placeWord_stack (s : State) (op : Word) : (s.placeWord op).stack = s.stack := rfl
@[simp] theorem State.placeWord_dt (s : State) (op : Word) : (s.placeWord op).dt = s.dt := rfl
@[simp] theorem State.placeWord_st (s : State) (op : Word) : (s.placeWord op).st = s.st := rfl
@[simp] theorem State.placeWord_keys (s : State) (op : Word) : (s.placeWord op).keys = s.keys := rfl
@[simp] theorem State.placeWord_fb (s : State) (op : Word) : (s.placeWord op).fb = s.fb := rfl
@[simp] theorem State.placeWord_redraw (s : State) (op : Word) : (s.placeWord op).redraw = s.redraw := rfl
@[simp] theorem State.placeWord_fault (s : State) (op : Word) : (s.placeWord op).fault = s.fault := rfl
@[simp] theorem State.placeWord_mem (s : State) (op : Word) : (s.placeWord op).mem = s.mem.writeBlock s.pc.toNat [(splitWord op).1, (splitWord op).2] := rfl
@[simp] theorem State.placeWord_rand (s : State) (op : Word) : (s.placeWord op).rand = s.rand := rfl
@[simp] theorem State.placeWord_drawIndex (s : State) (op : Word) : (s.placeWord op).drawIndex = s.drawIndex := rfl
@[simp] theorem State.placeWord_getV (s : State) (op : Word) (r : Reg) : (s.placeWord op).getV r = s.getV r := rfl
@[simp] theorem State.placeWord_keyDown (s : State) (op : Word) (j : Key) : (s.placeWord op).keyDown j = s.keyDown j := rfl

/-! ### `writeProgram` -/

@[simp] theorem State.writeProgram_v (s : State) (img : List Byte) : (s.writeProgram img).v = s.v := rfl
@[simp] theorem State.writeProgram_i (s : State) (img : List Byte) : (s.writeProgram img).i = s.i := rfl
@[simp] theorem State.writeProgram_pc (s : State) (img : List Byte) : (s.writeProgram img).pc = s.pc := rfl
@[simp] theorem State.writeProgram_sp (s : State) (img : List Byte) : (s.writeProgram img).sp = s.sp := rfl
@[simp] theorem State.writeProgram_stack (s : State) (img : List Byte) : (s.writeProgram img).stack = s.stack := rfl
@[simp] theorem State.writeProgram_dt (s : State) (img : List Byte) : (s.writeProgram img).dt = s.dt := rfl
@[simp] theorem State.writeProgram_st (s : State) (img : List Byte) : (s.writeProgram img).st = s.st := rfl
@[simp] theorem State.writeProgram_keys (s : State) (img : List Byte) : (s.writeProgram img).keys = s.keys := rfl
@[simp] theorem State.writeProgram_fb (s : State) (img : List Byte) : (s.writeProgram img).fb = s.fb := rfl
@[simp] theorem State.writeProgram_redraw (s : State) (img : List Byte) : (s.writeProgram img).redraw = s.redraw := rfl
@[simp] theorem State.writeProgram_fault (s : State) (img : List Byte) : (s.writeProgram img).fault = s.fault := rfl
@[simp] theorem State.writeProgram_mem (s : State) (img : List Byte) : (s.writeProgram img).mem = s.mem.writeBlock Config.programBase img := rfl
@[simp] theorem State.writeProgram_rand (s : State) (img : List Byte) : (s.writeProgram img).rand = s.rand := rfl
@[simp] theorem State.writeProgram_drawIndex (s : State) (img : List Byte) : (s.writeProgram img).drawIndex = s.drawIndex := rfl
@[simp] theorem State.writeProgram_getV (s : State) (img : List Byte) (r : Reg) : (s.writeProgram img).getV r = s.getV r := rfl
@[simp] theorem State.writeProgram_keyDown (s : State) (img : List Byte) (j : Key) : (s.writeProgram img).keyDown j = s.keyDown j := rfl

/-! ### `nextDraw` -/

@[simp] theorem State.nextDraw_v (s : State) : (s.nextDraw).v = s.v := rfl
@[simp] theorem State.nextDraw_i (s : State) : (s.nextDraw).i = s.i := rfl
@[simp] theorem State.nextDraw_pc (s : State) : (s.nextDraw).pc = s.pc := rfl
@[simp] theorem State.nextDraw_sp (s : State) : (s.nextDraw).sp = s.sp := rfl
@[simp] theorem State.nextDraw_stack (s : State) : (s.nextDraw).stack = s.stack := rfl
@[simp] theorem State.nextDraw_dt (s : State) : (s.nextDraw).dt = s.dt := rfl
@[simp] theorem State.nextDraw_st (s : State) : (s.nextDraw).st = s.st := rfl
@[simp] theorem State.nextDraw_keys (s : State) : (s.nextDraw).keys = s.keys := rfl
@[simp] theorem State.nextDraw_fb (s : State) : (s.nextDraw).fb = s.fb := rfl
@[simp] theorem State.nextDraw_redraw (s : State) : (s.nextDraw).redraw = s.redraw := rfl
@[simp] theorem State.nextDraw_fault (s : State) : (s.nextDraw).fault = s.fault := rfl
@[simp] theorem State.nextDraw_mem (s : State) : (s.nextDraw).mem = s.mem := rfl
@[simp] theorem State.nextDraw_rand (s : State) : (s.nextDraw).rand = Config.freeDraw s.drawIndex := rfl
@[simp] theorem State.nextDraw_drawIndex (s : State) : (s.nextDraw).drawIndex = s.drawIndex + 1 := rfl
@[simp] theorem State.nextDraw_getV (s : State) (r : Reg) : (s.nextDraw).getV r = s.getV r := rfl
@[simp] theorem State.nextDraw_keyDown (s : State) (j : Key) : (s.nextDraw).keyDown j = s.keyDown j := rfl

/-! ### `withDraw` -/

@[simp] theorem State.withDraw_v (s : State) (b : Byte) : (s.withDraw b).v = s.v := rfl
@[simp] theorem State.withDraw_i (s : State) (b : Byte) : (s.withDraw b).i = s.i := rfl
@[simp] theorem State.withDraw_pc (s : State) (b : Byte) : (s.withDraw b).pc = s.pc := rfl
@[simp] theorem State.withDraw_sp (s : State) (b : Byte) : (s.withDraw b).sp = s.sp := rfl
@[simp] theorem State.withDraw_stack (s : State) (b : Byte) : (s.withDraw b).stack = s.stack := rfl
@[simp] theorem State.withDraw_dt (s : State) (b : Byte) : (s.withDraw b).dt = s.dt := rfl
@[simp] theorem State.withDraw_st (s : State) (b : Byte) : (s.withDraw b).st = s.st := rfl
@[simp] theorem State.withDraw_keys (s : State) (b : Byte) : (s.withDraw b).keys = s.keys := rfl
@[simp] theorem State.withDraw_fb (s : State) (b : Byte) : (s.withDraw b).fb = s.fb := rfl
@[simp] theorem State.withDraw_redraw (s : State) (b : Byte) : (s.withDraw b).redraw = s.redraw := rfl
@[simp] theorem State.withDraw_fault (s : State) (b : Byte) : (s.withDraw b).fault = s.fault := rfl
@[simp] theorem State.withDraw_mem (s : State) (b : Byte) : (s.withDraw b).mem = s.mem := rfl
@[simp] theorem State.withDraw_rand (s : State) (b : Byte) : (s.withDraw b).rand = b := rfl
@[simp] theorem State.withDraw_drawIndex (s : State) (b : Byte) : (s.withDraw b).drawIndex = s.drawIndex := rfl
@[simp] theorem State.withDraw_getV (s : State) (b : Byte) (r : Reg) : (s.withDraw b).getV r = s.getV r := rfl
@[simp] theorem State.withDraw_keyDown (s : State) (b : Byte) (j : Key) : (s.withDraw b).keyDown j = s.keyDown j := rfl

/-! ### Readings after writes -/

theorem State.setV_getV (s : State) (x r : Reg) (b : Byte) :
    (s.setV x b).getV r = if r = x then b else s.getV r := by
  simp [State.getV, State.setV, Vector.getElem_set, Fin.ext_iff, eq_comm]

@[simp] theorem State.setV_getV_self (s : State) (x : Reg) (b : Byte) : (s.setV x b).getV x = b := by
  simp [State.setV_getV]

@[simp] theorem State.setV_getV_of_ne (s : State) {x r : Reg} (b : Byte) (h : r ≠ x) :
    (s.setV x b).getV r = s.getV r := by simp [State.setV_getV, h]

@[simp] theorem State.setFlag_getV (s : State) (c : Bool) (r : Reg) :
    (s.setFlag c).getV r = if r = vf then flagByte c else s.getV r := State.setV_getV s vf r _

theorem State.setResultAndFlag_getV (s : State) (x : Reg) (b : Byte) (c : Bool) (r : Reg) :
    (s.setResultAndFlag x b c).getV r = if r = vf then flagByte c else if r = x then b else s.getV r := by
  rw [State.setResultAndFlag, State.setFlag_getV, State.setV_getV]

@[simp] theorem State.setRegs_getV (s : State) (w : Vector Byte 16) (r : Reg) : (s.setRegs w).getV r = w[r] := rfl

@[simp] theorem State.loadedRegs_getElem (s : State) (x : Reg) (k : Nat) (h : k < 16) :
    (s.loadedRegs x)[k] = if k ≤ x.val then s.mem.read (s.blockBase + k) else s.getV ⟨k, h⟩ := by
  rw [State.loadedRegs, Vector.getElem_ofFn]; rfl

/-- Register r after FX65's reads (R92). -/
theorem State.loadedRegs_reg (s : State) (x r : Reg) :
    (s.loadedRegs x)[r] = if r ≤ x then s.mem.read (s.blockBase + r.val) else s.getV r :=
  s.loadedRegs_getElem x r.val r.isLt

@[simp] theorem State.setKey_keyDown (s : State) (k j : Key) (c : Bool) :
    (s.setKey k c).keyDown j = if j = k then c else s.keyDown j := by
  simp [State.keyDown, State.setKey, Vector.getElem_set, Fin.ext_iff, eq_comm]

theorem State.setEntry_getElem (s : State) (k j : Fin 16) (w : Word) :
    (s.setEntry k w).stack[j] = if j = k then w else s.stack[j] := by
  simp [Vector.getElem_set, Fin.ext_iff, eq_comm]

/-! ### The framebuffer -/

@[simp] theorem blankFramebuffer_cell (y : Fin 32) (x : Fin 64) : blankFramebuffer.cell y x = false := by
  simp [blankFramebuffer, Framebuffer.cell]

theorem Framebuffer.toggle_cell (fb : Framebuffer) (y y' : Fin 32) (x x' : Fin 64) :
    (fb.toggle y x).cell y' x' = if y' = y ∧ x' = x then !fb.cell y x else fb.cell y' x' := by
  by_cases hy : y' = y <;> by_cases hx : x' = x <;>
    simp_all [Framebuffer.toggle, Framebuffer.cell, Fin.ext_iff, eq_comm]

end Sys2Proof.Machine
end

