-- ==== Sys2Proof/Laws/Memory.lean ====
section
/-! SUPPORT. The laws of memory: reading after writing (spec/20_memory.md R37), the canonical form, blocks of bytes (R28),
and the bound check (R27, R56). -/

namespace Sys2Proof.Machine

/-! ### Canonical form -/

theorem Memory.wfFrom_mono {m : Memory} {lo lo' : Nat} (h : Memory.wfFrom lo m = true) (hle : lo' ≤ lo) :
    Memory.wfFrom lo' m = true := by
  cases m with
  | nil => rfl
  | cons c rest => simp_all [Memory.wfFrom]; omega

/-- Below the first address of a canonical memory every byte is as if unlisted. -/
theorem Memory.read_below {m : Memory} {lo a : Nat} (h : Memory.wfFrom lo m = true) (ha : a < lo) :
    m.read a = unlisted a := by
  induction m generalizing lo with
  | nil => rfl
  | cons c rest ih =>
    obtain ⟨k, b⟩ := c
    simp only [Memory.wfFrom, Bool.and_eq_true, decide_eq_true_eq] at h
    have hk : k ≠ a := by omega
    simp [Memory.read, hk, ih h.2 (by omega : a < k + 1)]

theorem Memory.write_wfFrom {m : Memory} {lo a : Nat} (b : Byte) (h : Memory.wfFrom lo m = true) (hlo : lo ≤ a)
    (ha : a < Config.memSize) : Memory.wfFrom lo (m.write a b) = true := by
  induction m generalizing lo with
  | nil => simp only [Memory.write]; split <;> simp_all [Memory.wfFrom]
  | cons c rest ih =>
    obtain ⟨k, v⟩ := c
    simp only [Memory.wfFrom, Bool.and_eq_true, decide_eq_true_eq] at h
    obtain ⟨⟨⟨h1, h2⟩, h3⟩, h4⟩ := h
    simp only [Memory.write]
    split
    · split <;> simp_all [Memory.wfFrom]
    · split
      · split
        · exact Memory.wfFrom_mono h4 (by omega)
        · subst_vars; simp_all [Memory.wfFrom]
      · simp_all [Memory.wfFrom, ih h4 (by omega : k + 1 ≤ a)]

/-- A write to an existing address keeps the canonical form. -/
theorem Memory.write_wf {m : Memory} {a : Nat} (b : Byte) (h : m.wf = true) (ha : a < Config.memSize) :
    (m.write a b).wf = true :=
  Memory.write_wfFrom b h (Nat.zero_le a) ha

/-- A block of writes to existing addresses keeps the canonical form. -/
theorem Memory.writeBlock_wf {m : Memory} {a : Nat} (bs : List Byte) (h : m.wf = true)
    (ha : a + bs.length ≤ Config.memSize) : (m.writeBlock a bs).wf = true := by
  induction bs generalizing m a with
  | nil => exact h
  | cons b bs ih =>
    simp only [List.length_cons] at ha
    exact ih (Memory.write_wf b h (by omega)) (by omega)

theorem reset_mem_wf : State.reset.mem.wf = true := rfl

/-! ### Reads after writes -/

/-- A write leaves every other byte alone (R28); no canonical form is needed for that. -/
theorem Memory.read_write_of_ne {m : Memory} {a a' : Nat} (b : Byte) (h : a' ≠ a) :
    (m.write a b).read a' = m.read a' := by
  have h' : a ≠ a' := fun e => h e.symm
  induction m with
  | nil => simp only [Memory.write]; split <;> simp [Memory.read, h']
  | cons c rest ih =>
    obtain ⟨k, v⟩ := c
    simp only [Memory.write]
    split
    · split <;> simp [Memory.read, h']
    · split
      · subst_vars; split <;> simp [Memory.read, h']
      · simp [Memory.read, ih]

theorem Memory.read_write_self_from {m : Memory} {lo a : Nat} (b : Byte) (h : Memory.wfFrom lo m = true) :
    (m.write a b).read a = b := by
  induction m generalizing lo with
  | nil => simp only [Memory.write]; split <;> simp_all [Memory.read]
  | cons c rest ih =>
    obtain ⟨k, v⟩ := c
    simp only [Memory.wfFrom, Bool.and_eq_true, decide_eq_true_eq] at h
    obtain ⟨-, h4⟩ := h
    simp only [Memory.write]
    split
    · rename_i hlt
      split
      · rename_i hb
        have hk : k ≠ a := by omega
        simp [Memory.read, hk, hb, Memory.read_below h4 (by omega : a < k + 1)]
      · simp [Memory.read]
    · split
      · subst_vars
        split
        · rename_i hb
          rw [hb, Memory.read_below h4 (by omega)]
        · simp [Memory.read]
      · rename_i hne
        simp [Memory.read, hne, ih h4]

/-- A write changes the byte written and no other (R28, R37). -/
theorem Memory.read_write {m : Memory} (a : Nat) (b : Byte) (a' : Nat) (h : m.wf = true) :
    (m.write a b).read a' = if a' = a then b else m.read a' := by
  split
  · subst_vars; exact Memory.read_write_self_from b h
  · rename_i hne; exact Memory.read_write_of_ne b hne

theorem Memory.read_writeBlock {m : Memory} (a : Nat) (bs : List Byte) (a' : Nat) (h : m.wf = true)
    (ha : a + bs.length ≤ Config.memSize) :
    (m.writeBlock a bs).read a' = if a ≤ a' ∧ a' < a + bs.length then bs.getD (a' - a) 0 else m.read a' := by
  induction bs generalizing m a with
  | nil => simp [Memory.writeBlock]
  | cons b bs ih =>
    simp only [List.length_cons] at ha
    rw [Memory.writeBlock, ih (a + 1) (Memory.write_wf b h (by omega)) (by omega), Memory.read_write a b a' h]
    by_cases e : a' = a
    · subst e; simp
    · by_cases e2 : a + 1 ≤ a' ∧ a' < a + 1 + bs.length
      · have e3 : a' - a = (a' - (a + 1)) + 1 := by omega
        have e4 : a ≤ a' ∧ a' < a + (b :: bs).length := by simp only [List.length_cons]; omega
        rw [if_pos e2, if_pos e4, e3, List.getD_cons_succ]
      · have e4 : ¬ (a ≤ a' ∧ a' < a + (b :: bs).length) := by simp only [List.length_cons]; omega
        rw [if_neg e2, if_neg e4, if_neg e]

theorem Memory.read_writeBlock_outside {m : Memory} {a a' : Nat} (bs : List Byte) (h : a' < a ∨ a + bs.length ≤ a') :
    (m.writeBlock a bs).read a' = m.read a' := by
  induction bs generalizing m a with
  | nil => rfl
  | cons b bs ih =>
    simp only [List.length_cons] at h
    rw [Memory.writeBlock, ih (by omega), Memory.read_write_of_ne b (by omega)]

theorem Memory.wfFrom_read_ext {m m' : Memory} {lo lo' : Nat} (h : Memory.wfFrom lo m = true)
    (h' : Memory.wfFrom lo' m' = true) (e : ∀ a, m.read a = m'.read a) : m = m' := by
  induction m generalizing m' lo lo' with
  | nil =>
    cases m' with
    | nil => rfl
    | cons c rest =>
      obtain ⟨k, v⟩ := c
      simp only [Memory.wfFrom, Bool.and_eq_true, bne_iff_ne] at h'
      have := e k
      simp [Memory.read] at this
      exact absurd this.symm h'.1.2
  | cons c rest ih =>
    obtain ⟨k, v⟩ := c
    simp only [Memory.wfFrom, Bool.and_eq_true, bne_iff_ne, decide_eq_true_eq] at h
    obtain ⟨⟨-, hv⟩, hr⟩ := h
    cases m' with
    | nil =>
      have := e k
      simp [Memory.read] at this
      exact absurd this hv
    | cons c' rest' =>
      obtain ⟨k', v'⟩ := c'
      simp only [Memory.wfFrom, Bool.and_eq_true, bne_iff_ne, decide_eq_true_eq] at h'
      obtain ⟨⟨-, hv'⟩, hr'⟩ := h'
      have hk : k = k' := by
        rcases Nat.lt_trichotomy k k' with hlt | heq | hgt
        · have := e k
          have hne : k' ≠ k := by omega
          simp [Memory.read, hne, Memory.read_below hr' (by omega : k < k' + 1)] at this
          exact absurd this hv
        · exact heq
        · have := e k'
          have hne : k ≠ k' := by omega
          simp [Memory.read, hne, Memory.read_below hr (by omega : k' < k + 1)] at this
          exact absurd this.symm hv'
      subst hk
      have hvv : v = v' := by simpa [Memory.read] using e k
      subst hvv
      congr 1
      apply ih hr hr'
      intro a
      by_cases ha : k = a
      · subst ha
        rw [Memory.read_below hr (by omega), Memory.read_below hr' (by omega)]
      · simpa [Memory.read, ha] using e a

/-- Two canonical memories with the same contents are the same data. -/
theorem Memory.ext_of_wf {m m' : Memory} (h : m.wf = true) (h' : m'.wf = true) (e : ∀ a, m.read a = m'.read a) :
    m = m' :=
  Memory.wfFrom_read_ext h h' e

/-! ### Blocks -/

@[simp] theorem Memory.readBlock_length (m : Memory) (a n : Nat) : (m.readBlock a n).length = n := by
  induction n generalizing a with
  | zero => rfl
  | succ n ih => simp [Memory.readBlock, ih]

theorem Memory.readBlock_getElem (m : Memory) (a n k : Nat) (h : k < (m.readBlock a n).length) :
    (m.readBlock a n)[k] = m.read (a + k) := by
  induction n generalizing a k with
  | zero => simp [Memory.readBlock] at h
  | succ n ih =>
    cases k with
    | zero => rfl
    | succ k =>
      simp only [Memory.readBlock, List.getElem_cons_succ]
      rw [ih]; congr 1; omega

/-! ### The bound check -/

/-- No fault exactly when the block is empty or ends inside the address space (R27). -/
theorem firstBad_eq_none (a n : Nat) : firstBad a n = none ↔ n = 0 ∨ a + n ≤ Config.memSize := by
  induction n generalizing a with
  | zero => simp [firstBad]
  | succ n ih =>
    simp only [firstBad]
    split
    · simp; omega
    · rw [ih]; omega

/-- The address a block check reports is its first one at or above 0x1000 (R27, R91). -/
theorem firstBad_eq_some (a n : Nat) (h0 : 0 < n) (h : Config.memSize < a + n) :
    firstBad a n = some (.memoryFault (trunc16 (max a Config.memSize))) := by
  induction n generalizing a with
  | zero => omega
  | succ n ih =>
    simp only [firstBad]
    split
    · rename_i h1; rw [Nat.max_eq_left h1]
    · rename_i h1
      rw [ih (a + 1) (by omega) (by omega)]
      congr 3
      omega

end Sys2Proof.Machine
end

