-- ==== Sys2Proof/Laws/Display.lean ====
section
/-! SUPPORT. What the XOR-draw and collision unit does (R60-R62): a row of a sprite toggles exactly the cells its 1 bits land on,
and collides exactly when one of them was set. -/

namespace Sys2Proof.Machine

theorem Framebuffer.toggle_cell_self (fb : Framebuffer) (y : Fin 32) (x : Fin 64) :
    (fb.toggle y x).cell y x = !fb.cell y x := by simp [Framebuffer.toggle_cell]

theorem Framebuffer.toggle_cell_of_ne (fb : Framebuffer) {y y' : Fin 32} {x x' : Fin 64} (h : ¬ (y' = y ∧ x' = x)) :
    (fb.toggle y x).cell y' x' = fb.cell y' x' := by rw [Framebuffer.toggle_cell, if_neg h]

/-- The eight columns of a sprite fall on eight different columns of the grid (R61). -/
theorem wrapColumn_inj {x0 : Nat} {c d : Fin 8} (h : wrapColumn x0 c.val = wrapColumn x0 d.val) : c = d := by
  have h' : (x0 + c.val) % 64 = (x0 + d.val) % 64 := congrArg Fin.val h
  have := c.isLt
  have := d.isLt
  exact Fin.ext (by omega)

/-- The rows of a sprite, at most 32 of them, fall on different rows of the grid (R61). -/
theorem wrapRow_inj {y0 r q : Nat} (hr : r < 32) (hq : q < 32) (h : wrapRow y0 r = wrapRow y0 q) : r = q := by
  have h' : (y0 + r) % 32 = (y0 + q) % 32 := congrArg Fin.val h
  omega

/-- The bits of one sprite byte, in the columns listed, that land on a cell. -/
def bitsHit (x0 : Nat) (row : Byte) (cs : List (Fin 8)) (x : Fin 64) : Prop :=
  ∃ c ∈ cs, spriteBit row c = true ∧ x = wrapColumn x0 c.val

/-- Drawing the bits of the columns listed, each once (R60, R62). -/
theorem drawBits_spec (x0 y0 r : Nat) (row : Byte) (cs : List (Fin 8)) (hn : cs.Nodup) (acc : Framebuffer × Bool) :
    (∀ y x, (cs.foldl (drawBit x0 y0 r row) acc).1.cell y x ≠ acc.1.cell y x ↔
      y = wrapRow y0 r ∧ bitsHit x0 row cs x) ∧
    ((cs.foldl (drawBit x0 y0 r row) acc).2 = true ↔
      acc.2 = true ∨ ∃ x, acc.1.cell (wrapRow y0 r) x = true ∧ bitsHit x0 row cs x) := by
  induction cs generalizing acc with
  | nil => simp [bitsHit]
  | cons c cs ih =>
    obtain ⟨hc, hn⟩ := List.nodup_cons.1 hn
    obtain ⟨h1, h2⟩ := ih hn (drawBit x0 y0 r row acc c)
    rw [List.foldl_cons]
    by_cases hb : spriteBit row c = true
    · have hfresh : ¬ bitsHit x0 row cs (wrapColumn x0 c.val) := by
        rintro ⟨d, hd, -, he⟩
        exact hc (wrapColumn_inj he ▸ hd)
      have hits : ∀ x, bitsHit x0 row (c :: cs) x ↔ x = wrapColumn x0 c.val ∨ bitsHit x0 row cs x := by
        intro x; simp [bitsHit, hb]
      have hd1 : (drawBit x0 y0 r row acc c).1 = acc.1.toggle (wrapRow y0 r) (wrapColumn x0 c.val) := by
        simp [drawBit, hb]
      have hd2 : (drawBit x0 y0 r row acc c).2 = (acc.2 || acc.1.cell (wrapRow y0 r) (wrapColumn x0 c.val)) := by
        simp [drawBit, hb]
      rw [hd1] at h1 h2
      rw [hd2] at h2
      refine ⟨fun y x => ?_, ?_⟩
      · by_cases he : y = wrapRow y0 r ∧ x = wrapColumn x0 c.val
        · obtain ⟨rfl, rfl⟩ := he
          have h3 := not_congr (h1 (wrapRow y0 r) (wrapColumn x0 c.val))
          rw [Framebuffer.toggle_cell_self, not_ne_iff] at h3
          rw [h3.2 (fun h => hfresh h.2), hits]
          simp
        · rw [← Framebuffer.toggle_cell_of_ne acc.1 he, h1, hits]
          refine and_congr_right fun hy => ⟨.inr, fun hx => hx.resolve_left fun e => he ⟨hy, e⟩⟩
      · rw [h2, Bool.or_eq_true, or_assoc]
        refine or_congr_right ⟨?_, ?_⟩
        · rintro (h | ⟨x, hx, hh⟩)
          · exact ⟨_, h, (hits _).2 (.inl rfl)⟩
          · refine ⟨x, ?_, (hits _).2 (.inr hh)⟩
            rwa [Framebuffer.toggle_cell_of_ne] at hx
            exact fun e => hfresh (e.2 ▸ hh)
        · rintro ⟨x, hx, hh⟩
          rcases (hits x).1 hh with rfl | hh
          · exact .inl hx
          · refine .inr ⟨x, ?_, hh⟩
            rw [Framebuffer.toggle_cell_of_ne]
            · exact hx
            · exact fun e => hfresh (e.2 ▸ hh)
    · have hits : ∀ x, bitsHit x0 row (c :: cs) x ↔ bitsHit x0 row cs x := by
        intro x; simp [bitsHit, hb]
      have hd : drawBit x0 y0 r row acc c = acc := by simp [drawBit, hb]
      rw [hd] at h1 h2 ⊢
      exact ⟨fun y x => by rw [h1, hits], by rw [h2]; simp only [hits]⟩

/-- One sprite byte (R60-R62). -/
theorem drawRow_spec (x0 y0 r : Nat) (row : Byte) (acc : Framebuffer × Bool) :
    (∀ y x, (drawRow x0 y0 r row acc).1.cell y x ≠ acc.1.cell y x ↔
      y = wrapRow y0 r ∧ bitsHit x0 row (List.finRange 8) x) ∧
    ((drawRow x0 y0 r row acc).2 = true ↔
      acc.2 = true ∨ ∃ x, acc.1.cell (wrapRow y0 r) x = true ∧ bitsHit x0 row (List.finRange 8) x) :=
  drawBits_spec x0 y0 r row _ (List.nodup_finRange 8) acc

/-- The cells that the rows listed, the first of them row r of the sprite, land on with a 1 bit. -/
def rowsHit (x0 y0 r : Nat) (rows : List Byte) (y : Fin 32) (x : Fin 64) : Prop :=
  ∃ k, ∃ h : k < rows.length, y = wrapRow y0 (r + k) ∧ bitsHit x0 rows[k] (List.finRange 8) x

theorem rowsHit_cons (x0 y0 r : Nat) (row : Byte) (rows : List Byte) (y : Fin 32) (x : Fin 64) :
    rowsHit x0 y0 r (row :: rows) y x ↔
      (y = wrapRow y0 r ∧ bitsHit x0 row (List.finRange 8) x) ∨ rowsHit x0 y0 (r + 1) rows y x := by
  constructor
  · rintro ⟨k, hk, hy, hx⟩
    cases k with
    | zero => exact .inl ⟨hy, hx⟩
    | succ k =>
      exact .inr ⟨k, by simpa using hk, by rw [hy]; congr 1; omega, by simpa using hx⟩
  · rintro (⟨hy, hx⟩ | ⟨k, hk, hy, hx⟩)
    · exact ⟨0, by simp, hy, hx⟩
    · exact ⟨k + 1, by simpa using hk, by rw [hy]; congr 1; omega, by simpa using hx⟩

/-- A sprite of at most 32 rows, drawn from row r down (R60-R62). -/
theorem drawRows_spec (x0 y0 r : Nat) (rows : List Byte) (hr : r + rows.length ≤ 32) (acc : Framebuffer × Bool) :
    (∀ y x, (drawRows x0 y0 r rows acc).1.cell y x ≠ acc.1.cell y x ↔ rowsHit x0 y0 r rows y x) ∧
    ((drawRows x0 y0 r rows acc).2 = true ↔
      acc.2 = true ∨ ∃ y x, acc.1.cell y x = true ∧ rowsHit x0 y0 r rows y x) := by
  induction rows generalizing r acc with
  | nil => simp [drawRows, rowsHit]
  | cons row rows ih =>
    rw [List.length_cons] at hr
    obtain ⟨h1, h2⟩ := ih (r + 1) (by omega) (drawRow x0 y0 r row acc)
    obtain ⟨k1, k2⟩ := drawRow_spec x0 y0 r row acc
    have hfresh : ∀ y x, rowsHit x0 y0 (r + 1) rows y x → y ≠ wrapRow y0 r := by
      rintro y x ⟨k, hk, rfl, -⟩ e
      have := wrapRow_inj (by omega) (by omega) e
      omega
    have hsame : ∀ y x, rowsHit x0 y0 (r + 1) rows y x → (drawRow x0 y0 r row acc).1.cell y x = acc.1.cell y x :=
      fun y x h => not_ne_iff.1 fun hne => hfresh y x h ((k1 y x).1 hne).1
    rw [drawRows]
    refine ⟨fun y x => ?_, ?_⟩
    · rw [rowsHit_cons]
      by_cases hh : rowsHit x0 y0 (r + 1) rows y x
      · simp only [hh, or_true, iff_true]
        rw [← hsame y x hh]
        exact (h1 y x).2 hh
      · have h3 := not_congr (h1 y x)
        rw [not_ne_iff] at h3
        rw [h3.2 hh, k1]
        simp [hh]
    · rw [h2, k2, or_assoc]
      refine or_congr_right ⟨?_, ?_⟩
      · rintro (⟨x, hx, hh⟩ | ⟨y, x, hx, hh⟩)
        · exact ⟨_, x, hx, (rowsHit_cons ..).2 (.inl ⟨rfl, hh⟩)⟩
        · exact ⟨y, x, hsame y x hh ▸ hx, (rowsHit_cons ..).2 (.inr hh)⟩
      · rintro ⟨y, x, hx, hh⟩
        rcases (rowsHit_cons ..).1 hh with ⟨e, hb⟩ | hb
        · exact .inl ⟨x, e ▸ hx, hb⟩
        · exact .inr ⟨y, x, (hsame y x hb).trans hx, hb⟩

end Sys2Proof.Machine
end

