-- ==== Sys2Proof/Laws/Frames.lean ====
section
/-! SUPPORT. What each update of a state can change (`OnlyChanges`), and how such facts compose along an instruction. -/

namespace Sys2Proof

open Machine

theorem SamePart.refl (s : State) (p : Part) : SamePart s s p := by cases p <;> simp [SamePart]

theorem SamePart.trans {s t u : State} {p : Part} (h : SamePart s t p) (h' : SamePart t u p) : SamePart s u p := by
  cases p <;> simp_all [SamePart]

theorem OnlyChanges.refl (ps : List Part) (s : State) : OnlyChanges ps s s := fun p _ => SamePart.refl s p

/-- Two changes in a row change what either changes. -/
theorem OnlyChanges.trans {ps qs : List Part} {s t u : State} (h : OnlyChanges ps s t) (h' : OnlyChanges qs t u) :
    OnlyChanges (ps ++ qs) s u := fun p hp =>
  (h p fun hc => hp (List.mem_append_left qs hc)).trans (h' p fun hc => hp (List.mem_append_right ps hc))

/-- A frame may name more than is changed. -/
theorem OnlyChanges.mono {ps qs : List Part} {s t : State} (h : OnlyChanges ps s t) (hsub : ps ⊆ qs) :
    OnlyChanges qs s t := fun p hp => h p fun hc => hp (hsub hc)

/-- Two changes in a row, named by one list. -/
theorem OnlyChanges.comp {ps qs rs : List Part} {s t u : State} (h : OnlyChanges ps s t) (h' : OnlyChanges qs t u)
    (hsub : ps ++ qs ⊆ rs) : OnlyChanges rs s u := (h.trans h').mono hsub

theorem OnlyRegs.of_getV {rs : List Reg} {s t : State} (h : ∀ r, r ∉ rs → t.getV r = s.getV r) : OnlyRegs rs s t := h

theorem OnlyBytes.of_only {ps : List Part} {s t : State} (h : OnlyChanges ps s t) (hm : Part.mem ∉ ps) (a n : Nat) :
    OnlyBytes a n s t := fun b _ => h .mem hm b

end Sys2Proof

namespace Sys2Proof.Machine

theorem State.setV_only (s : State) (x : Reg) (b : Byte) : OnlyChanges [.v] s (s.setV x b) := by
  intro p hp; cases p <;> simp_all [SamePart]

theorem State.setRegs_only (s : State) (w : Vector Byte 16) : OnlyChanges [.v] s (s.setRegs w) := by
  intro p hp; cases p <;> simp_all [SamePart]

theorem State.setFlag_only (s : State) (c : Bool) : OnlyChanges [.v] s (s.setFlag c) := by
  intro p hp; cases p <;> simp_all [SamePart]

theorem State.setResultAndFlag_only (s : State) (x : Reg) (b : Byte) (c : Bool) : OnlyChanges [.v] s (s.setResultAndFlag x b c) := by
  intro p hp; cases p <;> simp_all [SamePart]

theorem State.setI_only (s : State) (w : Word) : OnlyChanges [.i] s (s.setI w) := by
  intro p hp; cases p <;> simp_all [SamePart]

theorem State.advance_only (s : State) (n : Nat) : OnlyChanges [.pc] s (s.advance n) := by
  intro p hp; cases p <;> simp_all [SamePart]

theorem State.jump_only (s : State) (w : Word) : OnlyChanges [.pc] s (s.jump w) := by
  intro p hp; cases p <;> simp_all [SamePart]

theorem State.skipIf_only (s : State) (c : Bool) : OnlyChanges [.pc] s (s.skipIf c) := by
  intro p hp; cases p <;> simp_all [SamePart]

theorem State.skipUnknown_only (s : State) : OnlyChanges [.pc] s (s.skipUnknown) := by
  intro p hp; cases p <;> simp_all [SamePart]

theorem State.setSp_only (s : State) (n : Fin 17) : OnlyChanges [.sp] s (s.setSp n) := by
  intro p hp; cases p <;> simp_all [SamePart]

theorem State.setEntry_only (s : State) (k : Fin 16) (w : Word) : OnlyChanges [.stack] s (s.setEntry k w) := by
  intro p hp; cases p <;> simp_all [SamePart]

theorem State.setDt_only (s : State) (b : Byte) : OnlyChanges [.dt] s (s.setDt b) := by
  intro p hp; cases p <;> simp_all [SamePart]

theorem State.setSt_only (s : State) (b : Byte) : OnlyChanges [.st] s (s.setSt b) := by
  intro p hp; cases p <;> simp_all [SamePart]

theorem State.setKey_only (s : State) (k : Key) (c : Bool) : OnlyChanges [.keys] s (s.setKey k c) := by
  intro p hp; cases p <;> simp_all [SamePart]

theorem State.show_only (s : State) (g : Framebuffer) : OnlyChanges [.fb, .redraw] s (s.show g) := by
  intro p hp; cases p <;> simp_all [SamePart]

theorem State.clearRedraw_only (s : State) : OnlyChanges [.redraw] s (s.clearRedraw) := by
  intro p hp; cases p <;> simp_all [SamePart]

theorem State.raise_only (s : State) (f : Fault) : OnlyChanges [.fault] s (s.raise f) := by
  intro p hp; cases p <;> simp_all [SamePart]

theorem State.storeBlock_only (s : State) (bs : List Byte) : OnlyChanges [.mem] s (s.storeBlock bs) := by
  intro p hp; cases p <;> simp_all [SamePart]

theorem State.placeWord_only (s : State) (op : Word) : OnlyChanges [.mem] s (s.placeWord op) := by
  intro p hp; cases p <;> simp_all [SamePart]

theorem State.writeProgram_only (s : State) (img : List Byte) : OnlyChanges [.mem] s (s.writeProgram img) := by
  intro p hp; cases p <;> simp_all [SamePart]

theorem State.nextDraw_only (s : State) : OnlyChanges [.draw] s (s.nextDraw) := by
  intro p hp; cases p <;> simp_all [SamePart]

theorem State.withDraw_only (s : State) (b : Byte) : OnlyChanges [.draw] s (s.withDraw b) := by
  intro p hp; cases p <;> simp_all [SamePart]

/-- Taking a fault changes the fault register alone (R100). -/
theorem State.raise_takes (s : State) (f : Fault) : TakesFault f s (s.raise f) := ⟨rfl, s.raise_only f⟩

/-! ### The draw of a step and `initialize()` -/

@[simp] theorem State.keepDraw_v (s t : State) : (s.keepDraw t).v = t.v := rfl

@[simp] theorem State.keepDraw_i (s t : State) : (s.keepDraw t).i = t.i := rfl

@[simp] theorem State.keepDraw_pc (s t : State) : (s.keepDraw t).pc = t.pc := rfl

@[simp] theorem State.keepDraw_sp (s t : State) : (s.keepDraw t).sp = t.sp := rfl

@[simp] theorem State.keepDraw_stack (s t : State) : (s.keepDraw t).stack = t.stack := rfl

@[simp] theorem State.keepDraw_dt (s t : State) : (s.keepDraw t).dt = t.dt := rfl

@[simp] theorem State.keepDraw_st (s t : State) : (s.keepDraw t).st = t.st := rfl

@[simp] theorem State.keepDraw_keys (s t : State) : (s.keepDraw t).keys = t.keys := rfl

@[simp] theorem State.keepDraw_fb (s t : State) : (s.keepDraw t).fb = t.fb := rfl

@[simp] theorem State.keepDraw_redraw (s t : State) : (s.keepDraw t).redraw = t.redraw := rfl

@[simp] theorem State.keepDraw_fault (s t : State) : (s.keepDraw t).fault = t.fault := rfl

@[simp] theorem State.keepDraw_mem (s t : State) : (s.keepDraw t).mem = t.mem := rfl

@[simp] theorem State.keepDraw_rand (s t : State) : (s.keepDraw t).rand = s.rand := rfl

@[simp] theorem State.keepDraw_drawIndex (s t : State) : (s.keepDraw t).drawIndex = s.drawIndex := rfl

@[simp] theorem State.keepDraw_getV (s t : State) (r : Reg) : (s.keepDraw t).getV r = t.getV r := rfl

@[simp] theorem State.keepDraw_keyDown (s t : State) (k : Key) : (s.keepDraw t).keyDown k = t.keyDown k := rfl

/-- What a step changes beside the draw is all that its transaction changes (R21: the draw is not remembered). -/
theorem State.keepDraw_only {ps : List Part} {s t : State} (h : OnlyChanges (.draw :: ps) s t) :
    OnlyChanges ps s (s.keepDraw t) := by
  intro p hp
  by_cases hd : p = .draw
  · subst hd; exact ⟨rfl, rfl⟩
  · have hs := h p (by simp [hd, hp])
    cases p <;> first | exact hs | exact absurd rfl hd

/-- `initialize()` leaves the reset state but for the model's own draw (R116). -/
theorem State.init_only (s : State) : OnlyChanges [.draw] State.reset s.init := by
  intro p hp; cases p <;> simp_all [SamePart, State.init, State.getV, State.keyDown]

end Sys2Proof.Machine
end

