-- ==== Sys2Proof/Laws/PerInstr.lean ====
section
/-! SUPPORT. Families of statements made per instruction (LAWS.json). -/

namespace Sys2Proof.Laws.EncodesInTable

/-- The word of a well-formed instruction matches a row of the decode table that builds the instruction again (R44). -/
def Statement (i : Instr) : Prop :=
  i.wellFormed = true → ∃ r ∈ decodeTable, r.matches (encode i) = true ∧ r.build (encode i) = i

/-- A row of the table and what has to be seen of it. -/
theorem of_row {i : Instr} (r : Row) (hr : r ∈ decodeTable) (hm : encode i &&& r.mask = r.pattern)
    (hb : i.wellFormed = true → r.build (encode i) = i) : Statement i :=
  fun hw => ⟨r, hr, by simp [Row.matches, hm], hb hw⟩

theorem fieldNNN_wordNNN (f : Nat) (nnn : Word) (h : fits12 nnn = true) : fieldNNN (wordNNN f nnn) = nnn := by
  have h' : nnn.toNat < 0x1000 := by simpa [fits12] using h
  apply BitVec.eq_of_toNat_eq
  rw [wordNNN_eq, fieldNNN_nibbles_toNat]
  simp only [BitVec.extractLsb'_toNat, Nat.shiftRight_eq_div_pow]
  omega

theorem mask_wordNNN (f : Nat) (nnn : Word) : wordNNN f nnn &&& 0xF000 = nibbles (BitVec.ofNat 4 f) 0 0 0 := by
  rw [wordNNN_eq, mask_f]

theorem fields_wordXNN (f : Nat) (x : Reg) (nn : Byte) :
    fieldX (wordXNN f x nn.toNat) = x ∧ fieldNN (wordXNN f x nn.toNat) = nn := by
  have hn := nn.isLt
  refine ⟨by rw [wordXNN_eq f x _ hn, fieldX_nibbles], BitVec.eq_of_toNat_eq ?_⟩
  rw [wordXNN_eq f x _ hn, fieldNN_nibbles_toNat]
  simp only [BitVec.toNat_ofNat]
  omega

theorem fieldX_wordXNN (f : Nat) (x : Reg) (nn : Nat) (hn : nn < 256) : fieldX (wordXNN f x nn) = x := by
  rw [wordXNN_eq f x _ hn, fieldX_nibbles]

theorem mask_wordXNN (f : Nat) (x : Reg) (nn : Byte) :
    wordXNN f x nn.toNat &&& 0xF000 = nibbles (BitVec.ofNat 4 f) 0 0 0 := by
  rw [wordXNN_eq f x _ nn.isLt, mask_f]

theorem mask_wordXNN_low (f : Nat) (x : Reg) (nn : Nat) (hn : nn < 256) :
    wordXNN f x nn &&& 0xF0FF = nibbles (BitVec.ofNat 4 f) 0 (BitVec.ofNat 4 (nn / 16)) (BitVec.ofNat 4 nn) := by
  rw [wordXNN_eq f x _ hn, mask_fyn]

theorem fields_wordXYN (f : Nat) (x y : Reg) (n : Nat) (hn : n < 16) :
    fieldX (wordXYN f x y n) = x ∧ fieldY (wordXYN f x y n) = y := by
  rw [wordXYN_eq f x y n hn, fieldX_nibbles, fieldY_nibbles]
  exact ⟨rfl, rfl⟩

theorem fieldN_wordXYN (f : Nat) (x y : Reg) (n : Fin 16) : fieldN (wordXYN f x y n.val) = n := by
  rw [wordXYN_eq f x y n.val n.isLt, fieldN_nibbles]
  apply Fin.ext
  have := n.isLt
  simp only [BitVec.toFin_ofNat, Fin.val_ofNat]
  omega

theorem mask_wordXYN (f : Nat) (x y : Reg) (n : Nat) (hn : n < 16) :
    wordXYN f x y n &&& 0xF00F = nibbles (BitVec.ofNat 4 f) 0 0 (BitVec.ofNat 4 n) := by
  rw [wordXYN_eq f x y n hn, mask_fn]

theorem mask_wordXYN_top (f : Nat) (x y : Reg) (n : Fin 16) :
    wordXYN f x y n.val &&& 0xF000 = nibbles (BitVec.ofNat 4 f) 0 0 0 := by
  rw [wordXYN_eq f x y n.val n.isLt, mask_f]

/-! One lemma per instruction: its row of R44, the mask of its word, and its operands read back. -/

theorem cls : Statement (.cls) :=
  of_row ⟨0xFFFF, 0x00E0, fun _ => .cls⟩ (by simp [decodeTable, rowsControl, rowsAlu, rowsMiddle, rowsMisc])
    (rfl) (fun _ => rfl)

theorem ret : Statement (.ret) :=
  of_row ⟨0xFFFF, 0x00EE, fun _ => .ret⟩ (by simp [decodeTable, rowsControl, rowsAlu, rowsMiddle, rowsMisc])
    (rfl) (fun _ => rfl)

theorem jp (nnn : Word) : Statement (.jp nnn) :=
  of_row ⟨0xF000, 0x1000, fun op => .jp (fieldNNN op)⟩ (by simp [decodeTable, rowsControl, rowsAlu, rowsMiddle, rowsMisc])
    (mask_wordNNN 0x1 nnn) (fun hw => congrArg Instr.jp (fieldNNN_wordNNN 0x1 nnn hw))

theorem call (nnn : Word) : Statement (.call nnn) :=
  of_row ⟨0xF000, 0x2000, fun op => .call (fieldNNN op)⟩ (by simp [decodeTable, rowsControl, rowsAlu, rowsMiddle, rowsMisc])
    (mask_wordNNN 0x2 nnn) (fun hw => congrArg Instr.call (fieldNNN_wordNNN 0x2 nnn hw))

theorem seByte (x : Reg) (nn : Byte) : Statement (.seByte x nn) :=
  of_row ⟨0xF000, 0x3000, fun op => .seByte (fieldX op) (fieldNN op)⟩ (by simp [decodeTable, rowsControl, rowsAlu, rowsMiddle, rowsMisc])
    (mask_wordXNN 0x3 x nn) (fun _ => congrArg₂ Instr.seByte (fields_wordXNN 0x3 x nn).1 (fields_wordXNN 0x3 x nn).2)

theorem sneByte (x : Reg) (nn : Byte) : Statement (.sneByte x nn) :=
  of_row ⟨0xF000, 0x4000, fun op => .sneByte (fieldX op) (fieldNN op)⟩ (by simp [decodeTable, rowsControl, rowsAlu, rowsMiddle, rowsMisc])
    (mask_wordXNN 0x4 x nn) (fun _ => congrArg₂ Instr.sneByte (fields_wordXNN 0x4 x nn).1 (fields_wordXNN 0x4 x nn).2)

theorem seReg (x y : Reg) : Statement (.seReg x y) :=
  of_row ⟨0xF00F, 0x5000, fun op => .seReg (fieldX op) (fieldY op)⟩ (by simp [decodeTable, rowsControl, rowsAlu, rowsMiddle, rowsMisc])
    (mask_wordXYN 0x5 x y 0x0 (by decide)) (fun _ => congrArg₂ Instr.seReg (fields_wordXYN 0x5 x y 0x0 (by decide)).1 (fields_wordXYN 0x5 x y 0x0 (by decide)).2)

theorem sneReg (x y : Reg) : Statement (.sneReg x y) :=
  of_row ⟨0xF00F, 0x9000, fun op => .sneReg (fieldX op) (fieldY op)⟩ (by simp [decodeTable, rowsControl, rowsAlu, rowsMiddle, rowsMisc])
    (mask_wordXYN 0x9 x y 0x0 (by decide)) (fun _ => congrArg₂ Instr.sneReg (fields_wordXYN 0x9 x y 0x0 (by decide)).1 (fields_wordXYN 0x9 x y 0x0 (by decide)).2)

theorem ldByte (x : Reg) (nn : Byte) : Statement (.ldByte x nn) :=
  of_row ⟨0xF000, 0x6000, fun op => .ldByte (fieldX op) (fieldNN op)⟩ (by simp [decodeTable, rowsControl, rowsAlu, rowsMiddle, rowsMisc])
    (mask_wordXNN 0x6 x nn) (fun _ => congrArg₂ Instr.ldByte (fields_wordXNN 0x6 x nn).1 (fields_wordXNN 0x6 x nn).2)

theorem addByte (x : Reg) (nn : Byte) : Statement (.addByte x nn) :=
  of_row ⟨0xF000, 0x7000, fun op => .addByte (fieldX op) (fieldNN op)⟩ (by simp [decodeTable, rowsControl, rowsAlu, rowsMiddle, rowsMisc])
    (mask_wordXNN 0x7 x nn) (fun _ => congrArg₂ Instr.addByte (fields_wordXNN 0x7 x nn).1 (fields_wordXNN 0x7 x nn).2)

theorem ldReg (x y : Reg) : Statement (.ldReg x y) :=
  of_row ⟨0xF00F, 0x8000, fun op => .ldReg (fieldX op) (fieldY op)⟩ (by simp [decodeTable, rowsControl, rowsAlu, rowsMiddle, rowsMisc])
    (mask_wordXYN 0x8 x y 0x0 (by decide)) (fun _ => congrArg₂ Instr.ldReg (fields_wordXYN 0x8 x y 0x0 (by decide)).1 (fields_wordXYN 0x8 x y 0x0 (by decide)).2)

theorem orReg (x y : Reg) : Statement (.orReg x y) :=
  of_row ⟨0xF00F, 0x8001, fun op => .orReg (fieldX op) (fieldY op)⟩ (by simp [decodeTable, rowsControl, rowsAlu, rowsMiddle, rowsMisc])
    (mask_wordXYN 0x8 x y 0x1 (by decide)) (fun _ => congrArg₂ Instr.orReg (fields_wordXYN 0x8 x y 0x1 (by decide)).1 (fields_wordXYN 0x8 x y 0x1 (by decide)).2)

theorem andReg (x y : Reg) : Statement (.andReg x y) :=
  of_row ⟨0xF00F, 0x8002, fun op => .andReg (fieldX op) (fieldY op)⟩ (by simp [decodeTable, rowsControl, rowsAlu, rowsMiddle, rowsMisc])
    (mask_wordXYN 0x8 x y 0x2 (by decide)) (fun _ => congrArg₂ Instr.andReg (fields_wordXYN 0x8 x y 0x2 (by decide)).1 (fields_wordXYN 0x8 x y 0x2 (by decide)).2)

theorem xorReg (x y : Reg) : Statement (.xorReg x y) :=
  of_row ⟨0xF00F, 0x8003, fun op => .xorReg (fieldX op) (fieldY op)⟩ (by simp [decodeTable, rowsControl, rowsAlu, rowsMiddle, rowsMisc])
    (mask_wordXYN 0x8 x y 0x3 (by decide)) (fun _ => congrArg₂ Instr.xorReg (fields_wordXYN 0x8 x y 0x3 (by decide)).1 (fields_wordXYN 0x8 x y 0x3 (by decide)).2)

theorem addReg (x y : Reg) : Statement (.addReg x y) :=
  of_row ⟨0xF00F, 0x8004, fun op => .addReg (fieldX op) (fieldY op)⟩ (by simp [decodeTable, rowsControl, rowsAlu, rowsMiddle, rowsMisc])
    (mask_wordXYN 0x8 x y 0x4 (by decide)) (fun _ => congrArg₂ Instr.addReg (fields_wordXYN 0x8 x y 0x4 (by decide)).1 (fields_wordXYN 0x8 x y 0x4 (by decide)).2)

theorem subReg (x y : Reg) : Statement (.subReg x y) :=
  of_row ⟨0xF00F, 0x8005, fun op => .subReg (fieldX op) (fieldY op)⟩ (by simp [decodeTable, rowsControl, rowsAlu, rowsMiddle, rowsMisc])
    (mask_wordXYN 0x8 x y 0x5 (by decide)) (fun _ => congrArg₂ Instr.subReg (fields_wordXYN 0x8 x y 0x5 (by decide)).1 (fields_wordXYN 0x8 x y 0x5 (by decide)).2)

theorem shr (x y : Reg) : Statement (.shr x y) :=
  of_row ⟨0xF00F, 0x8006, fun op => .shr (fieldX op) (fieldY op)⟩ (by simp [decodeTable, rowsControl, rowsAlu, rowsMiddle, rowsMisc])
    (mask_wordXYN 0x8 x y 0x6 (by decide)) (fun _ => congrArg₂ Instr.shr (fields_wordXYN 0x8 x y 0x6 (by decide)).1 (fields_wordXYN 0x8 x y 0x6 (by decide)).2)

theorem subnReg (x y : Reg) : Statement (.subnReg x y) :=
  of_row ⟨0xF00F, 0x8007, fun op => .subnReg (fieldX op) (fieldY op)⟩ (by simp [decodeTable, rowsControl, rowsAlu, rowsMiddle, rowsMisc])
    (mask_wordXYN 0x8 x y 0x7 (by decide)) (fun _ => congrArg₂ Instr.subnReg (fields_wordXYN 0x8 x y 0x7 (by decide)).1 (fields_wordXYN 0x8 x y 0x7 (by decide)).2)

theorem shl (x y : Reg) : Statement (.shl x y) :=
  of_row ⟨0xF00F, 0x800E, fun op => .shl (fieldX op) (fieldY op)⟩ (by simp [decodeTable, rowsControl, rowsAlu, rowsMiddle, rowsMisc])
    (mask_wordXYN 0x8 x y 0xE (by decide)) (fun _ => congrArg₂ Instr.shl (fields_wordXYN 0x8 x y 0xE (by decide)).1 (fields_wordXYN 0x8 x y 0xE (by decide)).2)

theorem ldI (nnn : Word) : Statement (.ldI nnn) :=
  of_row ⟨0xF000, 0xA000, fun op => .ldI (fieldNNN op)⟩ (by simp [decodeTable, rowsControl, rowsAlu, rowsMiddle, rowsMisc])
    (mask_wordNNN 0xA nnn) (fun hw => congrArg Instr.ldI (fieldNNN_wordNNN 0xA nnn hw))

theorem jpV0 (nnn : Word) : Statement (.jpV0 nnn) :=
  of_row ⟨0xF000, 0xB000, fun op => .jpV0 (fieldNNN op)⟩ (by simp [decodeTable, rowsControl, rowsAlu, rowsMiddle, rowsMisc])
    (mask_wordNNN 0xB nnn) (fun hw => congrArg Instr.jpV0 (fieldNNN_wordNNN 0xB nnn hw))

theorem rnd (x : Reg) (nn : Byte) : Statement (.rnd x nn) :=
  of_row ⟨0xF000, 0xC000, fun op => .rnd (fieldX op) (fieldNN op)⟩ (by simp [decodeTable, rowsControl, rowsAlu, rowsMiddle, rowsMisc])
    (mask_wordXNN 0xC x nn) (fun _ => congrArg₂ Instr.rnd (fields_wordXNN 0xC x nn).1 (fields_wordXNN 0xC x nn).2)

theorem drw (x y : Reg) (n : Fin 16) : Statement (.drw x y n) :=
  of_row ⟨0xF000, 0xD000, fun op => .drw (fieldX op) (fieldY op) (fieldN op)⟩ (by simp [decodeTable, rowsControl, rowsAlu, rowsMiddle, rowsMisc])
    (mask_wordXYN_top 0xD x y n) (fun _ => by simp only [encode, fields_wordXYN 0xD x y n.val n.isLt, fieldN_wordXYN])

theorem skp (x : Reg) : Statement (.skp x) :=
  of_row ⟨0xF0FF, 0xE09E, fun op => .skp (fieldX op)⟩ (by simp [decodeTable, rowsControl, rowsAlu, rowsMiddle, rowsMisc])
    (mask_wordXNN_low 0xE x 0x9E (by decide)) (fun _ => congrArg Instr.skp (fieldX_wordXNN 0xE x 0x9E (by decide)))

theorem sknp (x : Reg) : Statement (.sknp x) :=
  of_row ⟨0xF0FF, 0xE0A1, fun op => .sknp (fieldX op)⟩ (by simp [decodeTable, rowsControl, rowsAlu, rowsMiddle, rowsMisc])
    (mask_wordXNN_low 0xE x 0xA1 (by decide)) (fun _ => congrArg Instr.sknp (fieldX_wordXNN 0xE x 0xA1 (by decide)))

theorem ldVxDt (x : Reg) : Statement (.ldVxDt x) :=
  of_row ⟨0xF0FF, 0xF007, fun op => .ldVxDt (fieldX op)⟩ (by simp [decodeTable, rowsControl, rowsAlu, rowsMiddle, rowsMisc])
    (mask_wordXNN_low 0xF x 0x07 (by decide)) (fun _ => congrArg Instr.ldVxDt (fieldX_wordXNN 0xF x 0x07 (by decide)))

theorem ldDtVx (x : Reg) : Statement (.ldDtVx x) :=
  of_row ⟨0xF0FF, 0xF015, fun op => .ldDtVx (fieldX op)⟩ (by simp [decodeTable, rowsControl, rowsAlu, rowsMiddle, rowsMisc])
    (mask_wordXNN_low 0xF x 0x15 (by decide)) (fun _ => congrArg Instr.ldDtVx (fieldX_wordXNN 0xF x 0x15 (by decide)))

theorem ldStVx (x : Reg) : Statement (.ldStVx x) :=
  of_row ⟨0xF0FF, 0xF018, fun op => .ldStVx (fieldX op)⟩ (by simp [decodeTable, rowsControl, rowsAlu, rowsMiddle, rowsMisc])
    (mask_wordXNN_low 0xF x 0x18 (by decide)) (fun _ => congrArg Instr.ldStVx (fieldX_wordXNN 0xF x 0x18 (by decide)))

theorem addI (x : Reg) : Statement (.addI x) :=
  of_row ⟨0xF0FF, 0xF01E, fun op => .addI (fieldX op)⟩ (by simp [decodeTable, rowsControl, rowsAlu, rowsMiddle, rowsMisc])
    (mask_wordXNN_low 0xF x 0x1E (by decide)) (fun _ => congrArg Instr.addI (fieldX_wordXNN 0xF x 0x1E (by decide)))

theorem ldVxK (x : Reg) : Statement (.ldVxK x) :=
  of_row ⟨0xF0FF, 0xF00A, fun op => .ldVxK (fieldX op)⟩ (by simp [decodeTable, rowsControl, rowsAlu, rowsMiddle, rowsMisc])
    (mask_wordXNN_low 0xF x 0x0A (by decide)) (fun _ => congrArg Instr.ldVxK (fieldX_wordXNN 0xF x 0x0A (by decide)))

theorem ldF (x : Reg) : Statement (.ldF x) :=
  of_row ⟨0xF0FF, 0xF029, fun op => .ldF (fieldX op)⟩ (by simp [decodeTable, rowsControl, rowsAlu, rowsMiddle, rowsMisc])
    (mask_wordXNN_low 0xF x 0x29 (by decide)) (fun _ => congrArg Instr.ldF (fieldX_wordXNN 0xF x 0x29 (by decide)))

theorem ldB (x : Reg) : Statement (.ldB x) :=
  of_row ⟨0xF0FF, 0xF033, fun op => .ldB (fieldX op)⟩ (by simp [decodeTable, rowsControl, rowsAlu, rowsMiddle, rowsMisc])
    (mask_wordXNN_low 0xF x 0x33 (by decide)) (fun _ => congrArg Instr.ldB (fieldX_wordXNN 0xF x 0x33 (by decide)))

theorem storeRegs (x : Reg) : Statement (.storeRegs x) :=
  of_row ⟨0xF0FF, 0xF055, fun op => .storeRegs (fieldX op)⟩ (by simp [decodeTable, rowsControl, rowsAlu, rowsMiddle, rowsMisc])
    (mask_wordXNN_low 0xF x 0x55 (by decide)) (fun _ => congrArg Instr.storeRegs (fieldX_wordXNN 0xF x 0x55 (by decide)))

theorem loadRegs (x : Reg) : Statement (.loadRegs x) :=
  of_row ⟨0xF0FF, 0xF065, fun op => .loadRegs (fieldX op)⟩ (by simp [decodeTable, rowsControl, rowsAlu, rowsMiddle, rowsMisc])
    (mask_wordXNN_low 0xF x 0x65 (by decide)) (fun _ => congrArg Instr.loadRegs (fieldX_wordXNN 0xF x 0x65 (by decide)))

end Sys2Proof.Laws.EncodesInTable
end

