-- ==== Sys2Proof/Laws/Ops.lean ====
section
/-! SUPPORT. What each shared operation of the machine can do, said once: the bound check with its fault (R27, R100), the
stack (R15), a key number (R93), fetching (R52), the wait (R96), and one step (R51). -/

namespace Sys2Proof.Machine

/-! ### Guarded accesses -/

theorem guarded_of_fits {s t : State} {a n : Nat} (h : n = 0 ∨ a + n ≤ Config.memSize) :
    s.guarded a n t = .next t := by
  simp [State.guarded, (firstBad_eq_none a n).2 h, State.settle]

theorem guarded_of_bad {s t : State} {a n : Nat} (h0 : 0 < n) (h : Config.memSize < a + n) :
    s.guarded a n t = .next (s.raise (.memoryFault (trunc16 (max a Config.memSize)))) := by
  simp [State.guarded, firstBad_eq_some a n h0 h, State.settle]

/-- A guarded access completes, or raises a fault whose address does not exist. -/
theorem guarded_cases (s t : State) {a n : Nat} (ha : a < 65536) :
    (s.guarded a n t = .next t ∧ (n = 0 ∨ a + n ≤ Config.memSize)) ∨
    (∃ w : Word, Config.memSize ≤ w.toNat ∧ s.guarded a n t = .next (s.raise (.memoryFault w))) := by
  by_cases h : n = 0 ∨ a + n ≤ Config.memSize
  · exact .inl ⟨guarded_of_fits h, h⟩
  · refine .inr ⟨_, ?_, guarded_of_bad (by omega) (by omega)⟩
    have hm : Config.memSize = 4096 := rfl
    simp only [BitVec.toNat_ofNat]
    omega

theorem State.blockBase_lt (s : State) : s.blockBase < 65536 := s.i.isLt

/-! ### Settling -/

@[simp] theorem settle_ok (s t : State) : s.settle (.ok t) = .next t := rfl

@[simp] theorem settle_error (s : State) (f : Fault) : s.settle (.error f) = .next (s.raise f) := rfl

/-! ### Stack -/

theorem push_full {s : State} {ra : Word} (h : s.sp.val = 16) : s.push ra = .error .stackOverflow := by
  simp [State.push, h]

theorem push_ok {s : State} {ra : Word} (h : s.sp.val < 16) :
    s.push ra = .ok ((s.setEntry ⟨s.sp.val, h⟩ ra).setSp ⟨s.sp.val + 1, by omega⟩) := by
  simp [State.push, h]

theorem pop_empty {s : State} (h : s.sp.val = 0) : s.pop = .error .stackUnderflow := by simp [State.pop, h]

theorem pop_ok {s : State} (h : s.sp.val ≠ 0) :
    s.pop = .ok (s.stack[s.sp.val - 1], s.setSp ⟨s.sp.val - 1, by omega⟩) := by
  simp only [State.pop, h, dite_false]

/-! ### Keys -/

theorem keyOperand_ok {b : Byte} (h : b.toNat < 16) : keyOperand b = .ok ⟨b.toNat, h⟩ := by simp [keyOperand, h]

theorem keyOperand_error {b : Byte} (h : 15 < b.toNat) : keyOperand b = .error (.keyIndexFault b) := by
  simp [keyOperand, Nat.not_lt.2 h]

theorem lowestKey_eq_none {s : State} : s.lowestKey = none ↔ ∀ k : Key, s.keyDown k = false := by
  simp [State.lowestKey, List.find?_eq_none]

/-- The key answered is pressed, and no lower one is (R96). -/
theorem lowestKey_spec {s : State} {k : Key} (h : s.lowestKey = some k) :
    s.keyDown k = true ∧ ∀ j : Key, j < k → s.keyDown j = false := by
  refine ⟨by simpa using List.find?_some h, fun j hj => ?_⟩
  obtain ⟨-, as, bs, e, hn⟩ := List.find?_eq_some_iff_append.1 h
  have hs : (as ++ k :: bs).Pairwise (· < ·) := e ▸ List.pairwise_lt_finRange 16
  have hm : j ∈ as ++ k :: bs := e ▸ List.mem_finRange j
  rcases List.mem_append.1 hm with h1 | h1
  · simpa using hn j h1
  · rcases List.mem_cons.1 h1 with rfl | h2
    · exact absurd hj (lt_irrefl _)
    · exact absurd hj (not_lt.2 (List.rel_of_pairwise_cons (List.pairwise_append.1 hs).2.1 h2).le)

/-- A pressed key below which none is pressed is the one answered (R96). -/
theorem lowestKey_eq_some {s : State} {k : Key} (hk : s.keyDown k = true)
    (hlow : ∀ j : Key, j < k → s.keyDown j = false) : s.lowestKey = some k := by
  cases h : s.lowestKey with
  | none => rw [lowestKey_eq_none] at h; simp [h k] at hk
  | some j =>
    obtain ⟨hj, hmin⟩ := lowestKey_spec h
    rcases lt_trichotomy j k with h1 | h1 | h1
    · simp [hlow j h1] at hj
    · rw [h1]
    · simp [hmin k h1] at hk

/-! ### Fetching -/

theorem joinBytes_toNat (hi lo : Byte) : (joinBytes hi lo).toNat = hi.toNat * 256 + lo.toNat := by
  have := hi.isLt; have := lo.isLt
  simp only [joinBytes, BitVec.toNat_or, BitVec.toNat_shiftLeft, BitVec.toNat_setWidth]
  rw [Nat.mod_eq_of_lt (by omega : hi.toNat < 2 ^ 16), Nat.mod_eq_of_lt (by omega : lo.toNat < 2 ^ 16),
    Nat.mod_eq_of_lt (by simp [Nat.shiftLeft_eq]; omega), ← Nat.shiftLeft_add_eq_or_of_lt (by omega), Nat.shiftLeft_eq]

theorem joinBytes_splitWord (op : Word) : joinBytes (splitWord op).1 (splitWord op).2 = op := by
  apply BitVec.eq_of_toNat_eq
  have := op.isLt
  simp only [joinBytes_toNat, splitWord, BitVec.extractLsb'_toNat, Nat.shiftRight_eq_div_pow]
  omega

theorem fetch_of_fits {s : State} (h : s.pc.toNat + 1 < Config.memSize) :
    s.fetch = .ok (joinBytes (s.mem.read s.pc.toNat) (s.mem.read (s.pc.toNat + 1))) := by
  have h1 : ¬ Config.memSize ≤ s.pc.toNat := by omega
  have h2 : ¬ Config.memSize ≤ s.pc.toNat + 1 := by omega
  simp [State.fetch, memRead, h1, h2]

theorem fetch_of_last {s : State} (h : s.pc.toNat + 1 = Config.memSize) :
    s.fetch = .error (.memoryFault (trunc16 Config.memSize)) := by
  have h1 : ¬ Config.memSize ≤ s.pc.toNat := by omega
  have h2 : Config.memSize ≤ s.pc.toNat + 1 := by omega
  simp [State.fetch, memRead, h1, h]

theorem fetch_of_beyond {s : State} (h : Config.memSize ≤ s.pc.toNat) : s.fetch = .error (.memoryFault s.pc) := by
  simp [State.fetch, memRead, h]

/-- A fetch reads a word, or faults at an address that does not exist (R52). -/
theorem fetch_cases (s : State) :
    (s.pc.toNat + 1 < Config.memSize ∧
      s.fetch = .ok (joinBytes (s.mem.read s.pc.toNat) (s.mem.read (s.pc.toNat + 1)))) ∨
    (∃ w : Word, Config.memSize ≤ w.toNat ∧ s.fetch = .error (.memoryFault w)) := by
  rcases Nat.lt_trichotomy (s.pc.toNat + 1) Config.memSize with h | h | h
  · exact .inl ⟨h, fetch_of_fits h⟩
  · exact .inr ⟨_, by decide, fetch_of_last h⟩
  · exact .inr ⟨s.pc, by omega, fetch_of_beyond (by omega)⟩

/-! ### One step (R51) -/

theorem step_halted {s : State} (h : s.fault ≠ none) : step s = .next s := by
  cases hf : s.fault with
  | none => exact absurd hf h
  | some f => simp [step, hf]

theorem step_fetch_fault {s : State} {f : Fault} (h : s.fault = none) (hf : s.fetch = .error f) :
    step s = .next (s.raise f) := by simp [step, h, hf]

theorem step_unknown {s : State} {op : Word} {e : DecodeError} (h : s.fault = none) (hf : s.fetch = .ok op)
    (hd : decodeWord op = .error e) : step s = .next s.skipUnknown := by simp [step, h, hf, hd]

theorem step_exec {s : State} {op : Word} {i : Instr} (h : s.fault = none) (hf : s.fetch = .ok op)
    (hd : decodeWord op = .ok i) : step s = exec i s := by simp [step, h, hf, hd]

/-- Everything a step can be: an empty step, a fetch fault, the unknown-opcode path, or an instruction. -/
theorem step_cases (s : State) :
    (s.fault ≠ none ∧ step s = .next s) ∨
    (s.fault = none ∧ ∃ w : Word, Config.memSize ≤ w.toNat ∧ s.fetch = .error (.memoryFault w) ∧
      step s = .next (s.raise (.memoryFault w))) ∨
    (s.fault = none ∧ ∃ op, s.fetch = .ok op ∧ decodeWord op = .error (.unknownOpcode op) ∧
      step s = .next s.skipUnknown) ∨
    (s.fault = none ∧ ∃ op i, s.fetch = .ok op ∧ decodeWord op = .ok i ∧ step s = exec i s) := by
  by_cases h : s.fault = none
  · rcases fetch_cases s with ⟨-, hf⟩ | ⟨w, hw, hf⟩
    · cases hd : decodeWord (joinBytes (s.mem.read s.pc.toNat) (s.mem.read (s.pc.toNat + 1))) with
      | error e =>
        have he := (no_row_of_decodeWord hd).1
        subst he
        exact .inr (.inr (.inl ⟨h, _, hf, hd, step_unknown h hf hd⟩))
      | ok i => exact .inr (.inr (.inr ⟨h, _, i, hf, hd, step_exec h hf hd⟩))
    · exact .inr (.inl ⟨h, w, hw, hf, step_fetch_fault h hf⟩)
  · exact .inl ⟨h, step_halted h⟩

end Sys2Proof.Machine
end

