-- ==== Sys2Proof/Tests/Slice0.lean ====
section
/-! SUPPORT. The model's own tests. The expected results come from spec/95_test_vectors.md (ids V, E, S, F, A, M, K) or are worked
out by hand from the rule cited; words are written out from the encodings of spec/30_encoding.md. Then, for every
obligation with hypotheses, a witness that meets them together. -/

namespace Sys2Proof.Tests

open Machine

/-- The state an instruction leaves; the state before it, should it stop. -/
def after (i : Instr) (s : State) : State :=
  match exec i s with
  | .next t => t
  | .fault _ => s
  | .refused _ => s

/-- The state one step leaves. -/
def afterStep (s : State) : State :=
  match step s with
  | .next t => t
  | .fault _ => s
  | .refused _ => s

/-- The reset state with some registers set. -/
def regs (l : List (Reg × Byte)) : State := l.foldl (fun s p => s.setV p.1 p.2) State.reset

/-- The reset state with I set. -/
def index (w : Word) : State := State.reset.setI w

/-- Some bytes stored at I. -/
def bytes (l : List Byte) (s : State) : State := s.storeBlock l

/-- The reset state with a word at the next fetch. -/
def placed (op : Word) : State := State.reset.withFetchWord 16 op.toNat

/-- The reset state with a stack pointer. -/
def depth (n : Fin 17) : State := State.reset.setSp n

/-- The positions of the set cells of one row. -/
def litColumns (s : State) (row : Fin 32) : List (Fin 64) := (List.finRange 64).filter (fun c => s.fb.cell row c)

/-- The row and column of every set cell in the rows listed. -/
def lit (s : State) (rows : List (Fin 32)) : List (Nat × Nat) :=
  rows.flatMap fun r => (litColumns s r).map fun c => (r.val, c.val)

/-! ### Well-formedness: an address field is 12 bits wide (R42) -/

theorem test_jp_wide_address_refused : (Instr.jp 0x1000).wellFormed = false := by decide

theorem test_jp_widest_address_accepted : (Instr.jp 0xFFF).wellFormed = true := by decide

theorem test_call_wide_address_refused : (Instr.call 0x1000).wellFormed = false := by decide

theorem test_call_widest_address_accepted : (Instr.call 0xFFF).wellFormed = true := by decide

theorem test_ldI_wide_address_refused : (Instr.ldI 0x1000).wellFormed = false := by decide

theorem test_ldI_widest_address_accepted : (Instr.ldI 0xFFF).wellFormed = true := by decide

theorem test_jpV0_wide_address_refused : (Instr.jpV0 0x1000).wellFormed = false := by decide

theorem test_jpV0_widest_address_accepted : (Instr.jpV0 0xFFF).wellFormed = true := by decide

theorem test_drw_always_wellFormed : (Instr.drw 15 15 15).wellFormed = true := by decide

/-! ### Decoding: for every constructor a word from the table of R44 -/

theorem test_decode_cls : decodeWord 0x00E0 = .ok .cls := by decide

theorem test_decode_ret : decodeWord 0x00EE = .ok .ret := by decide

theorem test_decode_jp : decodeWord 0x1ABC = .ok (.jp 0xABC) := by decide

theorem test_decode_call : decodeWord 0x2DEF = .ok (.call 0xDEF) := by decide

theorem test_decode_seByte : decodeWord 0x3A5C = .ok (.seByte 0xA 0x5C) := by decide

theorem test_decode_sneByte : decodeWord 0x4BC3 = .ok (.sneByte 0xB 0xC3) := by decide

theorem test_decode_seReg : decodeWord 0x5120 = .ok (.seReg 1 2) := by decide

theorem test_decode_sneReg : decodeWord 0x9340 = .ok (.sneReg 3 4) := by decide

theorem test_decode_ldByte : decodeWord 0x6D1E = .ok (.ldByte 0xD 0x1E) := by decide

theorem test_decode_addByte : decodeWord 0x7E81 = .ok (.addByte 0xE 0x81) := by decide

theorem test_decode_ldReg : decodeWord 0x8120 = .ok (.ldReg 1 2) := by decide

theorem test_decode_orReg : decodeWord 0x8341 = .ok (.orReg 3 4) := by decide

theorem test_decode_andReg : decodeWord 0x8562 = .ok (.andReg 5 6) := by decide

theorem test_decode_xorReg : decodeWord 0x8783 = .ok (.xorReg 7 8) := by decide

theorem test_decode_addReg : decodeWord 0x89A4 = .ok (.addReg 9 0xA) := by decide

theorem test_decode_subReg : decodeWord 0x8BC5 = .ok (.subReg 0xB 0xC) := by decide

theorem test_decode_shr : decodeWord 0x8DE6 = .ok (.shr 0xD 0xE) := by decide

theorem test_decode_subnReg : decodeWord 0x8F07 = .ok (.subnReg 0xF 0) := by decide

theorem test_decode_shl : decodeWord 0x821E = .ok (.shl 2 1) := by decide

theorem test_decode_ldI : decodeWord 0xA123 = .ok (.ldI 0x123) := by decide

theorem test_decode_jpV0 : decodeWord 0xB456 = .ok (.jpV0 0x456) := by decide

theorem test_decode_rnd : decodeWord 0xC79B = .ok (.rnd 7 0x9B) := by decide

theorem test_decode_drw : decodeWord 0xD8A6 = .ok (.drw 8 0xA 6) := by decide

theorem test_decode_skp : decodeWord 0xE39E = .ok (.skp 3) := by decide

theorem test_decode_sknp : decodeWord 0xECA1 = .ok (.sknp 0xC) := by decide

theorem test_decode_ldVxDt : decodeWord 0xF107 = .ok (.ldVxDt 1) := by decide

theorem test_decode_ldDtVx : decodeWord 0xF215 = .ok (.ldDtVx 2) := by decide

theorem test_decode_ldStVx : decodeWord 0xF318 = .ok (.ldStVx 3) := by decide

theorem test_decode_addI : decodeWord 0xF41E = .ok (.addI 4) := by decide

theorem test_decode_ldVxK : decodeWord 0xF50A = .ok (.ldVxK 5) := by decide

theorem test_decode_ldF : decodeWord 0xF629 = .ok (.ldF 6) := by decide

theorem test_decode_ldB : decodeWord 0xF733 = .ok (.ldB 7) := by decide

theorem test_decode_storeRegs : decodeWord 0xF855 = .ok (.storeRegs 8) := by decide

theorem test_decode_loadRegs : decodeWord 0xF965 = .ok (.loadRegs 9) := by decide

theorem test_decode_bytes : decode [0x60, 0x0A, 0x70] = .ok (.ldByte 0 0x0A, [0x70]) := by decide

theorem test_decode_too_short : decode [0x60] = .error .tooShort := by decide

/-- A table word is numbered from the least significant bit of the word, which is stored big-endian (R29, R41). -/
theorem test_decodeTableWord : decodeTableWord 16 0xD8A6 = some (.drw 8 0xA 6) := by decide

/-- E1-E5: unknown words (R45, R46). -/
theorem test_unknown_words :
    [0x0123, 0x5121, 0x9121, 0x8128, 0xE1FF, 0xF1FF].map decodeWord =
      [0x0123, 0x5121, 0x9121, 0x8128, 0xE1FF, 0xF1FF].map (fun op => .error (.unknownOpcode op)) := by decide

/-! ### Fetch and step -/

/-- V1, third step: an unknown word advances by 2 and warns with its word and address (R55). -/
theorem test_unknown_step : (afterStep State.reset).pc = 0x202 ∧ State.reset.warning = some ⟨0x0000, 0x200⟩ := by decide

/-- E6: an odd fetch (R30, R52). -/
theorem test_odd_fetch : (bytes [0x60, 0x42] ((index 0x201).jump 0x201)).fetch = .ok 0x6042 := by decide

/-- E7: the last word of memory (R52). -/
theorem test_last_word :
    (afterStep (bytes [0x12, 0x00] ((index 0xFFE).jump 0xFFE))).pc = 0x200 := by decide

/-- E8, E9: a fetch that leaves memory (R52). -/
theorem test_fetch_faults :
    (afterStep (State.reset.jump 0xFFF)).fault = some (.memoryFault 0x1000) ∧
    (afterStep (State.reset.jump 0x1000)).fault = some (.memoryFault 0x1000) := by decide

/-- E10: an empty step on a halted core (R51). -/
theorem test_halted_step : (afterStep ((placed 0x6A12).raise .stackOverflow)).pc = 0x200 ∧
    ((placed 0x6A12).raise .stackOverflow).warning = none := by decide

/-- A placed word is what the next step runs. -/
theorem test_placed_word_runs : (afterStep (placed 0x6A12)).getV 0xA = 0x12 := by decide

/-! ### Display -/

/-- S1, V7: CLS (R59). -/
theorem test_cls :
    let t := after .cls ((State.reset.show (blankFramebuffer.toggle 5 5)).clearRedraw)
    t.redraw = true ∧ t.pc = 0x202 ∧ lit t [5] = [] := by decide

/-- S3, cut to two rows: a sprite wraps on both axes; S7: set to unset is a collision, unset to set is not; S6: the origin
is read before VF is written (R60-R62). -/
theorem test_drw :
    let t := after (.drw 0 1 1) (bytes [0xC0] ((index 0x300).show (blankFramebuffer.toggle 0 0)))
    lit (after (.drw 0 1 2) (regs [(0, 62), (1, 31)])) [0, 31] = [(0, 1), (0, 62), (31, 0), (31, 1), (31, 62), (31, 63)] ∧
    lit t [0] = [(0, 1)] ∧ t.getV vf = 1 ∧
    lit (after (.drw 0xF 1 1) (regs [(0xF, 8)])) [0] = [(0, 8), (0, 9), (0, 10), (0, 11)] := by decide

/-- S4: N = 0 reads nothing, so it cannot fault; S5: the fault is taken before anything is written (R56, R60, D17). -/
theorem test_drw_edges :
    let t := after (.drw 0 1 0) ((index 0xFFF).setV vf 7)
    let u := after (.drw 0 1 3) ((index 0xFFE).setV vf 7)
    t.fault = none ∧ t.getV vf = 0 ∧ t.redraw = true ∧
    u.fault = some (.memoryFault 0x1000) ∧ u.getV vf = 7 ∧ u.redraw = false ∧ u.pc = 0x200 := by decide

/-- S10: reading the frame clears the pending flag (R63). -/
theorem test_consume_frame :
    let s := State.reset.show blankFramebuffer
    s.consumeFrame.2.1 = true ∧ s.consumeFrame.1.redraw = false ∧ s.consumeFrame.1.consumeFrame.2.1 = false := by decide

/-! ### Control transfer -/

/-- F1 (R64). -/
theorem test_ret_empty : (after .ret State.reset).fault = some .stackUnderflow ∧ (after .ret State.reset).pc = 0x200 := by decide

/-- F2: the popped entry stays in place (R64). -/
theorem test_ret :
    let t := after .ret (((depth 2).setEntry 0 0x202).setEntry 1 0x40A)
    t.sp = 1 ∧ t.pc = 0x40A ∧ t.stack[1] = 0x40A := by decide

/-- F3 (R66). -/
theorem test_call_full :
    let t := after (.call 0x300) (depth 16)
    t.fault = some .stackOverflow ∧ t.sp = 16 ∧ t.pc = 0x200 := by decide

/-- F4: the 16th call succeeds (R66). -/
theorem test_call :
    let t := after (.call 0x300) (depth 15)
    t.stack[15] = 0x202 ∧ t.sp = 16 ∧ t.pc = 0x300 := by decide

/-- F6: an odd target (R65, D13). -/
theorem test_jp : (after (.jp 0x201) State.reset).pc = 0x201 := by decide

/-- F7 (R67). -/
theorem test_seByte : (after (.seByte 3 0x12) (regs [(3, 0x12)])).pc = 0x204 ∧
    (after (.seByte 3 0x13) (regs [(3, 0x12)])).pc = 0x202 := by decide

/-- F8 (R68). -/
theorem test_sneByte : (after (.sneByte 3 0x12) (regs [(3, 0x12)])).pc = 0x202 ∧
    (after (.sneByte 3 0x13) (regs [(3, 0x12)])).pc = 0x204 := by decide

/-- F9, and two registers that differ (R69). -/
theorem test_seReg : (after (.seReg 1 1) (regs [(1, 5)])).pc = 0x204 ∧
    (after (.seReg 1 2) (regs [(1, 5)])).pc = 0x202 := by decide

/-- F10, and two registers that differ (R70). -/
theorem test_sneReg : (after (.sneReg 1 1) (regs [(1, 5)])).pc = 0x202 ∧
    (after (.sneReg 1 2) (regs [(1, 5)])).pc = 0x204 := by decide

/-- F11: a skip past the end of memory is taken; no mask (R54). -/
theorem test_skip_beyond : (after (.seByte 0 0) (State.reset.jump 0xFFC)).pc = 0x1000 := by decide

/-- F13, F15 (R71). -/
theorem test_jpV0 : (after (.jpV0 0x300) (regs [(0, 4)])).pc = 0x304 ∧
    (after (.jpV0 0xFFF) (regs [(0, 0xFF)])).pc = 0x10FE := by decide

/-! ### Registers and arithmetic -/

/-- A1 (R73). -/
theorem test_ldByte : (after (.ldByte 5 0x0A) (regs [(5, 0x99)])).getV 5 = 0x0A := by decide

/-- A2: wraps with no carry (R74). -/
theorem test_addByte :
    let t := after (.addByte 1 2) (regs [(1, 0xFF)])
    t.getV 1 = 1 ∧ t.getV vf = 0 := by decide

/-- A3: VF as the destination (R74). -/
theorem test_addByte_vf : (after (.addByte 0xF 1) (regs [(0xF, 0xFF)])).getV vf = 0 := by decide

/-- A4 (R75). -/
theorem test_ldReg : (after (.ldReg 1 2) (regs [(2, 0x33)])).getV 1 = 0x33 := by decide

/-- A5: VF is not reset (R76, D9). -/
theorem test_orReg :
    let t := after (.orReg 1 2) (regs [(1, 0x0F), (2, 0xF0), (0xF, 1)])
    t.getV 1 = 0xFF ∧ t.getV vf = 1 := by decide

/-- A6 (R77). -/
theorem test_andReg : (after (.andReg 1 2) (regs [(1, 0x3C), (2, 0x0F)])).getV 1 = 0x0C := by decide

/-- A6, A7 (R78). -/
theorem test_xorReg : (after (.xorReg 1 2) (regs [(1, 0x3C), (2, 0x0F)])).getV 1 = 0x33 ∧
    (after (.xorReg 1 1) (regs [(1, 0x3C)])).getV 1 = 0 := by decide

/-- A8, V3 (R79). -/
theorem test_addReg :
    let t := after (.addReg 1 2) (regs [(1, 0xFF), (2, 1)])
    let u := after (.addReg 1 2) (regs [(1, 0x80), (2, 0x7F)])
    t.getV 1 = 0 ∧ t.getV vf = 1 ∧ u.getV 1 = 0xFF ∧ u.getV vf = 0 := by decide

/-- A9, A10: the flag is written last; VF as a source is read first (R86). -/
theorem test_addReg_vf : (after (.addReg 0xF 1) (regs [(0xF, 0xFF), (1, 1)])).getV vf = 1 ∧
    (after (.addReg 1 0xF) (regs [(1, 0x10), (0xF, 0xF5)])).getV 1 = 5 := by decide

/-- V5 (R80). -/
theorem test_subReg :
    let t := after (.subReg 1 2) (regs [(1, 0x10), (2, 0x20)])
    let u := after (.subReg 1 2) (regs [(1, 0x33), (2, 0x33)])
    t.getV 1 = 0xF0 ∧ t.getV vf = 0 ∧ u.getV 1 = 0 ∧ u.getV vf = 1 := by decide

/-- A12 (R86). -/
theorem test_subReg_vf : (after (.subReg 0xF 2) (regs [(0xF, 5), (2, 0x10)])).getV vf = 0 := by decide

/-- A13, A14 (R81, D7). -/
theorem test_shr :
    let t := after (.shr 1 0) (regs [(1, 5)])
    let u := after (.shr 1 2) (regs [(1, 4), (2, 0xFF)])
    t.getV 1 = 2 ∧ t.getV vf = 1 ∧ u.getV 1 = 2 ∧ u.getV vf = 0 := by decide

/-- A15 (R86). -/
theorem test_shr_vf : (after (.shr 0xF 0) (regs [(0xF, 3)])).getV vf = 1 := by decide

/-- A16, A17 (R82). -/
theorem test_subnReg :
    let t := after (.subnReg 1 2) (regs [(1, 0x20), (2, 0x10)])
    let u := after (.subnReg 1 2) (regs [(1, 0x10), (2, 0x20)])
    t.getV 1 = 0xF0 ∧ t.getV vf = 0 ∧ u.getV 1 = 0x10 ∧ u.getV vf = 1 := by decide

/-- A18, A19 (R83, D7). -/
theorem test_shl :
    let t := after (.shl 1 0) (regs [(1, 0x80)])
    let u := after (.shl 1 0xF) (regs [(1, 0x7F)])
    t.getV 1 = 0 ∧ t.getV vf = 1 ∧ u.getV 1 = 0xFE ∧ u.getV vf = 0 := by decide

/-- A22: the draw given with the step (R84). -/
theorem test_rnd : (after (.rnd 3 0x0F) (State.reset.withDraw 0xB7)).getV 3 = 7 := by decide

/-- A21: whatever the free draw is (R84). -/
theorem test_rnd_masked : (after (.rnd 0 0) State.reset).getV 0 = 0 := by
  simp [after, exec, execRnd]

/-! ### Index register and memory -/

/-- M1 (R87). -/
theorem test_ldI : (after (.ldI 0x123) State.reset).i = 0x123 := by decide

/-- M2, M3: 16 bits, no flag, no fault (R88, D11). -/
theorem test_addI :
    let t := after (.addI 0) ((regs [(0, 1), (0xF, 9)]).setI 0xFFFF)
    t.i = 0 ∧ t.getV vf = 9 ∧ (after (.addI 0) ((regs [(0, 1)]).setI 0xFFF)).i = 0x1000 := by decide

/-- M4, M5: only the low digit counts (R89). -/
theorem test_ldF : (after (.ldF 4) (regs [(4, 0x1A)])).i = 0x032 ∧ (after (.ldF 4) (regs [(4, 0x0F)])).i = 0x04B := by decide

/-- M9: over the font, hundreds first (R90, D20). -/
theorem test_ldB : (after (.ldB 3) (regs [(3, 255)])).mem.readBlock 0 4 = [2, 5, 5, 0x90] := by decide

/-- M8 (R56, R90). -/
theorem test_ldB_fault :
    let t := after (.ldB 3) ((regs [(3, 123)]).setI 0xFFE)
    t.fault = some (.memoryFault 0x1000) ∧ t.mem = [] := by decide

/-- M10, at the end of memory; I stays (R91, D10). -/
theorem test_storeRegs :
    let t := after (.storeRegs 2) ((regs [(0, 1), (1, 2), (2, 3), (3, 4)]).setI 0xFFD)
    t.mem.readBlock 0xFFC 4 = [0, 1, 2, 3] ∧ t.i = 0xFFD := by decide

/-- M11, M12 (R56, R91). -/
theorem test_storeRegs_fault : (after (.storeRegs 0xF) ((regs [(0, 1)]).setI 0xFF1)).fault = some (.memoryFault 0x1000) ∧
    (after (.storeRegs 2) (index 0xFFFF)).fault = some (.memoryFault 0xFFFF) := by decide

/-- M14, with fewer registers: those above X stay (R92). -/
theorem test_loadRegs :
    let t := after (.loadRegs 1) (bytes [0xF0, 0xF1, 0xF2] ((regs [(2, 7)]).setI 0x300))
    t.getV 0 = 0xF0 ∧ t.getV 1 = 0xF1 ∧ t.getV 2 = 7 ∧ t.i = 0x300 := by decide

/-- M13 (R92). -/
theorem test_loadRegs_fault : (after (.loadRegs 0) (index 0x1000)).fault = some (.memoryFault 0x1000) := by decide

/-! ### Keys and timers -/

/-- K1, K3 (R93, D14). -/
theorem test_skp : (after (.skp 1) ((regs [(1, 5)]).setKey 5 true)).pc = 0x204 ∧
    (after (.skp 1) (regs [(1, 5)])).pc = 0x202 ∧
    (after (.skp 1) (regs [(1, 0x10)])).fault = some (.keyIndexFault 0x10) := by decide

/-- K2, K4 (R94, D14). -/
theorem test_sknp : (after (.sknp 1) ((regs [(1, 5)]).setKey 5 true)).pc = 0x202 ∧
    (after (.sknp 1) (regs [(1, 5)])).pc = 0x204 ∧
    (after (.sknp 1) (regs [(1, 0xFF)])).fault = some (.keyIndexFault 0xFF) := by decide

/-- K6: the lowest key (R96, D15). -/
theorem test_ldVxK :
    let t := after (.ldVxK 0) ((State.reset.setKey 12 true).setKey 4 true)
    t.getV 0 = 4 ∧ t.pc = 0x202 := by decide

/-- K5: no key, no progress (R96, R123). -/
theorem test_ldVxK_waits : (after (.ldVxK 2) State.reset).pc = 0x200 := by decide

/-- K8 (R95). -/
theorem test_ldVxDt : (after (.ldVxDt 3) (State.reset.setDt 0x3C)).getV 3 = 0x3C := by decide

/-- K9 (R97). -/
theorem test_ldDtVx : (after (.ldDtVx 3) (regs [(3, 0x3C)])).dt = 0x3C := by decide

/-- K10, K11: the event of a started timer, and of a cancelled one (R98, R107). -/
theorem test_ldStVx :
    let t := after (.ldStVx 0) (regs [(0, 1)])
    t.st = 1 ∧ t.tick.2 = true ∧ t.tick.1.st = 0 ∧ (after (.ldStVx 0) (State.reset.setSt 1)).tick.2 = false := by decide

/-- K12, K13 (R107). -/
theorem test_tick :
    let t := ((State.reset.setDt 2).setSt 3).tick
    State.reset.tick.1.dt = 0 ∧ t.1.dt = 1 ∧ t.1.st = 2 ∧ t.2 = false ∧ t.1.tick.1.tick.2 = true ∧
      t.1.tick.1.tick.1.st = 0 := by decide

/-- K15: a tick on a halted core (R109). -/
theorem test_tick_halted : ((State.reset.setDt 5).raise .stackUnderflow).tick.1.dt = 4 := by decide

/-- K16 (R110). -/
theorem test_setKey : ((State.reset.setKey 3 true).setKey 3 true).keyDown 3 = true ∧
    (State.reset.setKey 3 true).keyDown 4 = false := by decide

/-! ### The load port and reset -/

/-- E13: an odd image (R32, R34). -/
theorem test_load :
    let t := State.reset.loadProgram [0x12]
    t.2 = .ok ∧ t.1.mem.readBlock 0x1FF 3 = [0, 0x12, 0] ∧ t.1.pc = 0x200 := by decide

/-- E11: one byte too many (R33). -/
theorem test_load_too_large : (State.reset.loadProgram (List.replicate 0xE01 0)).2 = .programTooLarge := by
  rw [State.loadProgram, if_pos (by rw [List.length_replicate]; decide)]

/-- E14 (R116, R117). -/
theorem test_init :
    let t := ((bytes [1, 2, 3] (regs [(4, 9)])).raise .stackOverflow).init
    t.fault = none ∧ t.getV 4 = 0 ∧ t.pc = 0x200 ∧ t.mem.readBlock 0 5 = [0xF0, 0x90, 0x90, 0x90, 0xF0] := by decide

/-! ### Witnesses: each meets all hypotheses of one clause of an obligation together -/

theorem witness_DecodeOfEncodeIsIdentity : (Instr.jpV0 0xFFF).wellFormed = true := by decide

theorem witness_EncodeOfDecodeIsIdentity : decodeWord 0x8DE6 = .ok (.shr 0xD 0xE) := by decide

theorem witness_UnknownWordsAreTheListedOnes :
    State.reset.fault = none ∧ State.reset.fetch = .ok 0x0000 ∧
    decodeWord 0x0000 = .error (.unknownOpcode 0x0000) := by decide

theorem witness_UnknownOpcodeWarnsAndAdvances :
    (placed 0xF1FF).fault = none ∧ (placed 0xF1FF).fetch = .ok 0xF1FF ∧
    decodeWord 0xF1FF = .error (.unknownOpcode 0xF1FF) := by decide

/-- at the last address a word can be fetched from -/
theorem witness_StepRunsTheDecodedInstruction :
    let s := bytes [0x12, 0x00] ((index 0xFFE).jump 0xFFE)
    s.fault = none ∧ s.pc.toNat + 1 < 0x1000 ∧ decode [s.mem.read s.pc.toNat, s.mem.read (s.pc.toNat + 1)] = .ok (.jp 0x200, []) := by
  decide

theorem witness_PlacedWordIsRunNext :
    State.reset.mem.wf = true ∧ 16 ≤ 16 ∧ decodeTableWord 16 0x00EE = some .ret := by decide

theorem witness_FetchReadsTwoBytes : (State.reset.jump 0xFFE).pc.toNat + 1 < 0x1000 := by decide

theorem witness_FetchFaultsAtTheLastByte :
    (State.reset.jump 0xFFF).fault = none ∧ (State.reset.jump 0xFFF).pc.toNat = 0xFFF := by decide

theorem witness_FetchFaultsBeyondMemory :
    (State.reset.jump 0x1000).fault = none ∧ 0x1000 ≤ (State.reset.jump 0x1000).pc.toNat ∧
    0x1000 ≤ (State.reset.jump 0xFFFF).pc.toNat := by decide

theorem witness_FaultsArePreciseAndFinal :
    let s := State.reset.jump 0xFFF
    s.fault = none ∧ step s = .next (afterStep s) ∧ (afterStep s).fault ≠ none := ⟨rfl, rfl, by decide⟩

theorem witness_PortsWorkOnAHaltedCore :
    Transaction.tick ≠ .init ∧ ∀ rand, Transaction.tick ≠ .step rand := ⟨by decide, fun _ => by simp⟩

theorem witness_ProgramCounterDiscipline_jump :
    (State.reset).fault = none ∧ exec (.jp 0xFFF) (State.reset) = .next (after (.jp 0xFFF) (State.reset)) ∧
    (after (.jp 0xFFF) (State.reset)).fault = none := ⟨by decide, rfl, by decide⟩

theorem witness_ProgramCounterDiscipline_call :
    (depth 15).fault = none ∧ exec (.call 0xFFF) (depth 15) = .next (after (.call 0xFFF) (depth 15)) ∧
    (after (.call 0xFFF) (depth 15)).fault = none := ⟨by decide, rfl, by decide⟩

theorem witness_ProgramCounterDiscipline_indexed_jump :
    (regs [(0, 0xFF)]).fault = none ∧
    exec (.jpV0 0xFFF) (regs [(0, 0xFF)]) = .next (after (.jpV0 0xFFF) (regs [(0, 0xFF)])) ∧
    (after (.jpV0 0xFFF) (regs [(0, 0xFF)])).fault = none :=
  ⟨by decide, rfl, by decide⟩

theorem witness_ProgramCounterDiscipline_ret :
    (depth 1).fault = none ∧ exec (.ret) (depth 1) = .next (after (.ret) (depth 1)) ∧
    (after (.ret) (depth 1)).fault = none := ⟨by decide, rfl, by decide⟩

theorem witness_ProgramCounterDiscipline_skip :
    (regs [(1, 15)]).fault = none ∧ exec (.skp 1) (regs [(1, 15)]) = .next (after (.skp 1) (regs [(1, 15)])) ∧
    (after (.skp 1) (regs [(1, 15)])).fault = none := ⟨by decide, rfl, by decide⟩

theorem witness_ProgramCounterDiscipline_key_wait_pressed :
    (State.reset.setKey 15 true).fault = none ∧
    exec (.ldVxK 0) (State.reset.setKey 15 true) = .next (after (.ldVxK 0) (State.reset.setKey 15 true)) ∧
    (after (.ldVxK 0) (State.reset.setKey 15 true)).fault = none :=
  ⟨by decide, rfl, by decide⟩

theorem witness_ProgramCounterDiscipline_key_wait_unpressed :
    (State.reset).fault = none ∧ exec (.ldVxK 0) (State.reset) = .next (after (.ldVxK 0) (State.reset)) ∧
    (after (.ldVxK 0) (State.reset)).fault = none := ⟨by decide, rfl, by decide⟩

theorem witness_ProgramCounterDiscipline_plain :
    (index 0xFFD).fault = none ∧ exec (.ldB 3) (index 0xFFD) = .next (after (.ldB 3) (index 0xFFD)) ∧
    (after (.ldB 3) (index 0xFFD)).fault = none := ⟨by decide, rfl, by decide⟩

theorem witness_OnlyNamedInstructionsWrite :
    exec (.ldI 5) (State.reset.show blankFramebuffer) = .next (after (.ldI 5) (State.reset.show blankFramebuffer)) ∧
    (State.reset.show blankFramebuffer).redraw = true ∧
    ¬ SamePart (State.reset.show blankFramebuffer) (after (.ldI 5) (State.reset.show blankFramebuffer)) .i :=
  ⟨rfl, rfl, by simp only [SamePart]; decide⟩

theorem witness_OnlyNamedInstructionsWrite_memory :
    exec (.ldB 3) (index 0xFFD) = .next (after (.ldB 3) (index 0xFFD)) ∧ exec (.call 5) (depth 15) = .next (after (.call 5) (depth 15)) ∧
    (after (.ldB 3) ((index 0xFFD).setV 3 1)).mem.read 0xFFF ≠ (index 0xFFD).mem.read 0xFFF ∧
    (after (.call 5) (depth 15)).sp ≠ (depth 15).sp ∧ (after (.call 5) (depth 15)).stack[15] ≠ (depth 15).stack[15] :=
  ⟨rfl, rfl, by decide, by decide, by decide⟩

theorem witness_OnlyResultsAndFlagsChangeRegisters :
    exec (.addReg 1 2) (regs [(1, 0xFF), (2, 2)]) = .next (after (.addReg 1 2) (regs [(1, 0xFF), (2, 2)])) ∧
    (after (.addReg 1 2) (regs [(1, 0xFF), (2, 2)])).getV 1 ≠ (regs [(1, 0xFF), (2, 2)]).getV 1 ∧
    (after (.addReg 1 2) (regs [(1, 0xFF), (2, 2)])).getV vf ≠ (regs [(1, 0xFF), (2, 2)]).getV vf := ⟨rfl, by decide, by decide⟩

theorem witness_DrawMattersOnlyToRandom :
    ∀ op x nn, State.reset.fetch = .ok op → decodeWord op ≠ .ok (.rnd x nn) := by
  intro op x nn h
  have h0 : State.reset.fetch = .ok 0x0000 := by decide
  rw [h0] at h
  injection h with h
  have hd : decodeWord 0x0000 = .error (.unknownOpcode 0x0000) := by decide
  rw [← h, hd]
  simp

theorem witness_SoundTimerAndKeysAreReadByFew :
    (∀ x, Instr.ldVxDt 3 ≠ .ldStVx x) ∧ (∀ x, Instr.ldVxDt 3 ≠ .skp x) ∧ (∀ x, Instr.ldVxDt 3 ≠ .sknp x) ∧
    (∀ x, Instr.ldVxDt 3 ≠ .ldVxK x) ∧ exec (.ldVxDt 3) State.reset = .next (after (.ldVxDt 3) State.reset) :=
  ⟨by simp, by simp, by simp, by simp, rfl⟩

/-- the last block of memory for FX55 and for FX33, the longest image, and the last word a fetch reads -/
theorem witness_StoredBytesAreFetched :
    (index 0xFF0).mem.wf = true ∧ (index 0xFF0).i.toNat + (15 : Reg).val + 1 ≤ 0x1000 ∧ (index 0xFFD).mem.wf = true ∧
    (index 0xFFD).i.toNat + 3 ≤ 0x1000 ∧ (List.replicate 0xE00 (0 : Byte)).length ≤ 0xE00 ∧
    (0xFFE : Word).toNat + 1 < Config.memSize :=
  ⟨by decide, by decide, by decide, by decide, by rw [List.length_replicate], by decide⟩

theorem witness_EndedRunsStay_fault : Ended (State.reset.raise .stackOverflow) := .inl (by decide)

theorem witness_EndedRunsStay_self_jump : Ended (placed 0x1200) ∧ (placed 0x1200).fault = none :=
  ⟨.inr (by simp only [AtSelfJump]; decide), rfl⟩

theorem witness_StepKeepsStateLegal :
    LegalState State.reset ∧ step State.reset = .next (afterStep State.reset) := ⟨⟨rfl, trivial⟩, rfl⟩

/-- a legal halted state -/
theorem witness_StepKeepsStateLegal_halted :
    LegalState ((depth 16).raise .stackOverflow) := ⟨rfl, rfl⟩

theorem witness_RunsKeepStateLegal :
    LegalState State.reset ∧ run [.setKey 3 true, .init] State.reset = .next ((State.reset.setKey 3 true).init, [.done, .done]) :=
  ⟨⟨rfl, trivial⟩, rfl⟩

theorem witness_SkipsOnRegister : 0 < 1 ∧ 1 < 16 ∧ 0 < 15 ∧ 15 < 16 := by decide

theorem witness_JumpsSetThePc : (0xFFF : Word).toNat < 0x1000 := by decide

theorem witness_CallPushesReturnAddress :
    (depth 0).sp.val < 16 ∧ (depth 15).sp.val < 16 ∧ (depth 16).sp.val = 16 := by decide

theorem witness_ReturnPopsReturnAddress :
    0 < (depth 1).sp.val ∧ 0 < (depth 16).sp.val ∧ (depth 0).sp.val = 0 := by decide

/-- the subroutine has called and returned: the entry above the occupied one has changed -/
theorem witness_CallThenReturnComesBack :
    let t := after (.call 0x300) (depth 14)
    let u := after .ret (after (.call 0x400) t)
    (depth 14).sp.val < 16 ∧ exec (.call 0x300) (depth 14) = .next t ∧ SamePart t u .sp ∧
    (∀ k : Fin 16, k.val < t.sp.val → u.stack[k] = t.stack[k]) ∧ u.stack[15] ≠ t.stack[15] :=
  ⟨by decide, rfl, by simp only [SamePart]; decide, by decide, by decide⟩

/-- also the last register that is not VF, for the other statements with X != F -/
theorem witness_AddSetsCarry : (14 : Reg) ≠ vf := by decide

theorem witness_RandomIsDrawAndMask :
    (placed 0xC30F).fault = none ∧ (placed 0xC30F).fetch = .ok 0xC30F ∧ decodeWord 0xC30F = .ok (.rnd 3 0x0F) := by decide

theorem witness_IndexLoads : (0x000 : Word).toNat < 0x1000 ∧ (0xFFF : Word).toNat < 0x1000 := by decide

theorem witness_BcdIsStored : (index 0xFFD).mem.wf = true ∧ (index 0xFFD).i.toNat + 3 ≤ 0x1000 := by decide

theorem witness_RegistersAreStored :
    (index 0xFF0).mem.wf = true ∧ (index 0xFF0).i.toNat + (15 : Reg).val + 1 ≤ 0x1000 := by decide

theorem witness_RegistersAreLoaded : (index 0xFF0).i.toNat + (15 : Reg).val + 1 ≤ 0x1000 := by decide

theorem witness_StoreThenLoadRestores :
    let t := after (.storeRegs 15) (index 0xFF0)
    (index 0xFF0).mem.wf = true ∧ (index 0xFF0).i.toNat + (15 : Reg).val + 1 ≤ 0x1000 ∧ exec (.storeRegs 15) (index 0xFF0) = .next t ∧
    SamePart t (t.setV 1 7) .i ∧ ∀ k : Reg, k ≤ 15 →
      (t.setV 1 7).mem.read ((index 0xFF0).i.toNat + k.val) = t.mem.read ((index 0xFF0).i.toNat + k.val) :=
  ⟨by decide, by decide, rfl, rfl, fun _ _ => rfl⟩

theorem witness_BlockAccessesFault :
    0 < (1 : Fin 16).val ∧ 0x1000 < (index 0x1000).i.toNat + (1 : Fin 16).val ∧ 0x1000 < (index 0xFFE).i.toNat + 3 ∧
    0x1000 < (index 0xFF1).i.toNat + (15 : Reg).val + 1 ∧ 0x1000 < (index 0xFFFF).i.toNat + (0 : Reg).val + 1 := by decide

theorem witness_SpriteDrawingTogglesCoveredCells :
    (0 : Fin 16).val = 0 ∧ (index 0xFF1).i.toNat + (15 : Fin 16).val ≤ 0x1000 := by decide

theorem witness_CollisionIsSetToUnset :
    (0 : Reg) ≠ vf ∧ (14 : Reg) ≠ vf ∧ (index 0xFF1).i.toNat + (15 : Fin 16).val ≤ 0x1000 ∧
    exec (.drw 0 14 15) (index 0xFF1) = .next (after (.drw 0 14 15) (index 0xFF1)) := ⟨by decide, by decide, by decide, rfl⟩

theorem witness_SkipsOnKey :
    ((regs [(1, 15)]).getV 1).toNat = (15 : Key).val ∧ 15 < ((regs [(1, 16)]).getV 1).toNat := by decide

theorem witness_KeyWaitTakesLowestKey :
    (State.reset.setKey 15 true).keyDown 15 = true ∧ (∀ j : Key, j < 15 → (State.reset.setKey 15 true).keyDown j = false) ∧
    ∀ k : Key, State.reset.keyDown k = false := by decide

theorem witness_KeyWaitLastsUntilAPress :
    (placed 0xF20A).fault = none ∧ (placed 0xF20A).fetch = .ok 0xF20A ∧ decodeWord 0xF20A = .ok (.ldVxK 2) ∧
    (∀ k : Key, (placed 0xF20A).keyDown k = false) ∧
    ∀ tr ∈ [Transaction.tick, .step 0], tr = .tick ∨ ∃ rand, tr = .step rand :=
  ⟨by decide, by decide, by decide, by decide, by simp⟩

theorem witness_TimerTransfers :
    transact (.step 7) (placed 0xF018) =
    .next ((placed 0xF018).keepDraw (after (.ldStVx 0) (placed 0xF018)), .stepped none none) := rfl

theorem witness_SoundEventFiresOnce :
    (State.reset.setSt 1).st.toNat = 0 + 1 ∧ (State.reset.setSt 0xFF).st.toNat = 0xFE + 1 := by decide

theorem witness_LoadWritesAllOrNothing :
    (List.replicate 0xE01 (0 : Byte)).length > 0xE00 ∧ (List.replicate 0xE00 (0 : Byte)).length ≤ 0xE00 ∧
    State.reset.mem.wf = true :=
  ⟨by rw [List.length_replicate]; decide, by rw [List.length_replicate], rfl⟩

theorem witness_TransactionsWriteTheirParts :
    transact (.loadProgram []) State.reset = .next (State.reset, .loaded .ok) ∧
    transact (.step 7) (depth 16) = .next ((depth 16).advance 2, .stepped (some ⟨0, 0x200⟩) none) := ⟨rfl, rfl⟩

end Sys2Proof.Tests
end

section
/-! SUPPORT. Which state each instruction, each step and each transaction writes (spec/10_state.md R24). -/

namespace Sys2Proof.Machine

/-! ### How an instruction ends -/

/-- From `s` the outcome is a completed state in which only `parts` changed, or a fault raised on `s` itself (R56, R100). -/
inductive Settles (parts : List Part) (s : State) : Host.Outcome State Fault Refusal → Prop where
  /-- completed -/
  | completes {t : State} (h : OnlyChanges parts s t) : Settles parts s (.next t)
  /-- a fault raised, with nothing else changed -/
  | raises (f : Fault) : Settles parts s (.next (s.raise f))

namespace Settles

variable {ps qs : List Part} {s t : State} {o : Host.Outcome State Fault Refusal}

theorem mono (h : Settles ps s o) (hsub : ps ⊆ qs) : Settles qs s o := by
  cases h with
  | completes h => exact .completes (h.mono hsub)
  | raises f => exact .raises f

/-- What an instruction writes before it advances pc. -/
theorem advance (h : OnlyChanges ps s t) : Settles (ps ++ [.pc]) s (.next (t.advance 2)) :=
  .completes (h.trans (t.advance_only 2))

/-- A guarded instruction ends as its completed state does, or faults. -/
theorem guarded {a n : Nat} (ha : a < 65536) (h : Settles ps s (.next t)) : Settles ps s (s.guarded a n t) := by
  rcases guarded_cases s t ha with ⟨e, -⟩ | ⟨w, -, e⟩
  · exact e ▸ h
  · exact e ▸ .raises (.memoryFault w)

/-- An outcome that answers `t` changed the parts and the fault register at most. -/
theorem only_of_next (h : Settles ps s (.next t)) : OnlyChanges (.fault :: ps) s t := by
  cases h with
  | completes h => exact h.mono (List.subset_cons_self _ _)
  | raises f => exact (s.raise_only f).mono (by simp)

theorem exists_next (h : Settles ps s o) : ∃ t, o = .next t := by
  cases h with
  | completes h => exact ⟨_, rfl⟩
  | raises f => exact ⟨_, rfl⟩

end Settles

/-! ### Instructions -/

/-- What an instruction writes when it raises no fault. -/
def writtenParts : Instr → List Part
  | .cls => [.fb, .redraw, .pc]
  | .drw _ _ _ => [.fb, .redraw, .v, .pc]
  | .ret => [.sp, .pc]
  | .call _ => [.stack, .sp, .pc]
  | .jp _ | .jpV0 _ => [.pc]
  | .seByte _ _ | .sneByte _ _ | .seReg _ _ | .sneReg _ _ | .skp _ | .sknp _ => [.pc]
  | .ldByte _ _ | .addByte _ _ | .ldReg _ _ | .orReg _ _ | .andReg _ _ | .xorReg _ _ => [.v, .pc]
  | .addReg _ _ | .subReg _ _ | .shr _ _ | .subnReg _ _ | .shl _ _ => [.v, .pc]
  | .ldVxDt _ | .ldVxK _ | .loadRegs _ => [.v, .pc]
  | .rnd _ _ => [.draw, .v, .pc]
  | .ldI _ | .addI _ | .ldF _ => [.i, .pc]
  | .ldB _ | .storeRegs _ => [.mem, .pc]
  | .ldDtVx _ => [.dt, .pc]
  | .ldStVx _ => [.st, .pc]

theorem execRet_settles (s : State) : Settles [.sp, .pc] s (execRet s) := by
  by_cases h : s.sp.val = 0
  · simpa only [execRet, pop_empty h] using .raises .stackUnderflow
  · simpa only [execRet, pop_ok h] using .completes ((s.setSp_only _).trans (State.jump_only _ _))

theorem execCall_settles (s : State) (nnn : Word) : Settles [.stack, .sp, .pc] s (execCall nnn s) := by
  by_cases h : s.sp.val < 16
  · simpa only [execCall, push_ok h] using
      .completes (((s.setEntry_only _ _).trans (State.setSp_only _ _)).trans (State.jump_only _ _))
  · simpa only [execCall, push_full (by omega : s.sp.val = 16)] using .raises .stackOverflow

theorem skipOnKey_settles (s : State) (x : Reg) (want : Bool) : Settles [.pc] s (s.skipOnKey x want) := by
  by_cases h : (s.getV x).toNat < 16
  · simpa only [State.skipOnKey, keyOperand_ok h] using .completes (s.skipIf_only _)
  · simpa only [State.skipOnKey, keyOperand_error (by omega : 15 < (s.getV x).toNat)] using .raises (.keyIndexFault _)

theorem execLdVxK_settles (s : State) (x : Reg) : Settles [.v, .pc] s (execLdVxK x s) := by
  unfold execLdVxK
  cases s.lowestKey with
  | some k => exact .advance (s.setV_only x _)
  | none => exact .completes (.refl _ s)

/-- Every instruction completes, having written its own parts alone, or raises a fault. -/
theorem exec_settles (i : Instr) (s : State) : Settles (writtenParts i) s (exec i s) := by
  cases i with
  | cls => exact .advance (s.show_only _)
  | drw x y n =>
    exact .guarded s.blockBase_lt (.advance ((s.show_only _).trans (State.setFlag_only _ _)))
  | ret => exact execRet_settles s
  | call nnn => exact execCall_settles s nnn
  | jp nnn | jpV0 nnn => exact .completes (s.jump_only _)
  | seByte x nn | sneByte x nn | seReg x y | sneReg x y => exact .completes (s.skipIf_only _)
  | skp x | sknp x => exact skipOnKey_settles s x _
  | ldByte x nn | addByte x nn | ldReg x y | orReg x y | andReg x y | xorReg x y | ldVxDt x =>
    exact .advance (s.setV_only x _)
  | addReg x y | subReg x y | shr x y | subnReg x y | shl x y => exact .advance (s.setResultAndFlag_only x _ _)
  | ldVxK x => exact execLdVxK_settles s x
  | rnd x nn => exact .advance (s.nextDraw_only.trans (State.setV_only _ x _))
  | ldI nnn | addI x | ldF x => exact .advance (s.setI_only _)
  | ldB x | storeRegs x => exact .guarded s.blockBase_lt (.advance (s.storeBlock_only _))
  | loadRegs x => exact .guarded s.blockBase_lt (.advance (s.setRegs_only _))
  | ldDtVx x => exact .advance (s.setDt_only _)
  | ldStVx x => exact .advance (s.setSt_only _)

/-- No instruction clears `redraw`: 00E0 and DXYN set it, a fault and every other instruction leave it (R19). -/
theorem exec_keeps_redraw {i : Instr} {s t : State} (h : exec i s = .next t) (hr : s.redraw = true) :
    t.redraw = true := by
  have unwritten (hi : Part.redraw ∉ writtenParts i) : t.redraw = true := by
    have same : t.redraw = s.redraw := (h ▸ exec_settles i s).only_of_next .redraw (by simp [hi])
    exact same.trans hr
  cases i with
  | cls => cases h; rfl
  | drw x y n =>
    rcases guarded_cases s (((s.show (s.drawSprite x y n).1).setFlag (s.drawSprite x y n).2).advance 2)
      (n := n.val) s.blockBase_lt with ⟨e, -⟩ | ⟨w, -, e⟩
    · cases e.symm.trans h; rfl
    · cases e.symm.trans h; exact hr
  | _ => exact unwritten (by simp [writtenParts])

/-! ### The step transaction -/

/-- What a step can write when it raises no fault. -/
def engineParts : List Part := [.v, .i, .pc, .sp, .stack, .dt, .st, .fb, .redraw, .mem, .draw]

theorem writtenParts_subset (i : Instr) : writtenParts i ⊆ engineParts := by
  cases i <;> simp [writtenParts, engineParts]

theorem step_settles (s : State) : Settles engineParts s (step s) := by
  rcases step_cases s with ⟨-, e⟩ | ⟨-, w, -, -, e⟩ | ⟨-, op, -, -, e⟩ | ⟨-, op, i, -, -, e⟩ <;> rw [e]
  · exact .completes (.refl _ s)
  · exact .raises _
  · exact .completes (s.skipUnknown_only.mono (by simp [engineParts]))
  · exact (exec_settles i s).mono (writtenParts_subset i)

theorem step_keeps_redraw {s t : State} (h : step s = .next t) (hr : s.redraw = true) : t.redraw = true := by
  rcases step_cases s with ⟨-, e⟩ | ⟨-, w, -, -, e⟩ | ⟨-, op, -, -, e⟩ | ⟨-, op, i, -, -, e⟩
  · cases e.symm.trans h; exact hr
  · cases e.symm.trans h; exact hr
  · cases e.symm.trans h; exact hr
  · exact exec_keeps_redraw (e.symm.trans h) hr

/-- The `step` transaction is the engine's step with the draw in place, and the draw is not remembered. -/
theorem stepWith_next {rand : Byte} {s t : State} {r : Reply} (h : s.stepWith rand = .next (t, r)) :
    ∃ u, step (s.withDraw rand) = .next u ∧ t = s.keepDraw u ∧ r = .stepped s.warning u.fault := by
  obtain ⟨u, e⟩ := (step_settles (s.withDraw rand)).exists_next
  simp only [State.stepWith, e, Host.Outcome.next.injEq, Prod.mk.injEq] at h
  exact ⟨u, e, h.1.symm, h.2.symm⟩

theorem stepWith_only {rand : Byte} {s t : State} {r : Reply} (h : s.stepWith rand = .next (t, r)) :
    OnlyChanges [.v, .i, .pc, .sp, .stack, .dt, .st, .fb, .redraw, .mem, .fault] s t := by
  obtain ⟨u, hu, rfl, -⟩ := stepWith_next h
  have hstep := (hu ▸ step_settles (s.withDraw rand)).only_of_next
  exact State.keepDraw_only ((s.withDraw_only rand).comp hstep (by decide))

theorem stepWith_keeps_redraw {rand : Byte} {s t : State} {r : Reply} (h : s.stepWith rand = .next (t, r))
    (hr : s.redraw = true) : t.redraw = true := by
  obtain ⟨u, hu, rfl, -⟩ := stepWith_next h
  exact (step_keeps_redraw hu hr : u.redraw = true)

/-! ### The other transactions -/

theorem State.tickDelay_only (s : State) : OnlyChanges [.dt] s s.tickDelay := by
  unfold State.tickDelay
  split
  · exact s.setDt_only _
  · exact .refl _ s

theorem State.tickSound_only (s : State) : OnlyChanges [.st] s s.tickSound.1 := by
  unfold State.tickSound
  split
  · exact s.setSt_only _
  · split
    · exact s.setSt_only _
    · exact .refl _ s

theorem State.tick_only (s : State) : OnlyChanges [.dt, .st] s s.tick.1 :=
  s.tickDelay_only.trans s.tickDelay.tickSound_only

/-- A load is refused, or writes the image from 0x200 on (R33, R34). -/
theorem State.loadProgram_cases (s : State) (img : List Byte) :
    s.loadProgram img = (s, .programTooLarge) ∨ s.loadProgram img = (s.writeProgram img, .ok) := by
  unfold State.loadProgram
  split
  · exact .inl rfl
  · exact .inr rfl

theorem State.loadProgram_only (s : State) (img : List Byte) : OnlyChanges [.mem] s (s.loadProgram img).1 := by
  rcases s.loadProgram_cases img with e | e <;> rw [e]
  · exact .refl _ s
  · exact s.writeProgram_only img

/-- A load leaves the font and all else below 0x200 as it was (R34). -/
theorem State.loadProgram_read_below (s : State) (img : List Byte) {a : Nat} (ha : a < 0x200) :
    (s.loadProgram img).1.mem.read a = s.mem.read a := by
  rcases s.loadProgram_cases img with e | e <;> rw [e]
  exact Memory.read_writeBlock_outside img (.inl ha)

/-- Settles O56, one frame lemma for each kind of transaction. -/
theorem transactionsWriteTheirParts : Obligations.TransactionsWriteTheirParts := by
  unfold Obligations.TransactionsWriteTheirParts
  intro tr s t r h
  cases tr with
  | step rand => exact ⟨stepWith_only h, stepWith_keeps_redraw h⟩
  | tick => cases h; exact s.tick_only
  | setKey k pressed => cases h; exact s.setKey_only k pressed
  | consumeFrame => cases h; exact ⟨s.clearRedraw_only, rfl⟩
  | loadProgram img => cases h; exact ⟨s.loadProgram_only img, fun _ ha => s.loadProgram_read_below img ha⟩
  | init => cases h; exact s.init_only
  | registerSoundCallback => cases h; rfl

end Sys2Proof.Machine
end

section
/-! SUPPORT. Runs one transaction at a time, and the frame read-out (spec/41_display.md R63). -/

namespace Sys2Proof.Machine

/-- A run goes on from the state its first transaction left, and that reply comes first (R5). -/
theorem run_cons_next {tr : Transaction} {trs : List Transaction} {s t u : State} {r : Reply} {rs : List Reply}
    (hfirst : transact tr s = .next (t, r)) (hrest : run trs t = .next (u, rs)) :
    run (tr :: trs) s = .next (u, r :: rs) := by
  simp only [run, hfirst, hrest]

/-- No premise on `s.fault`: the read-out works on a halted core (R63). -/
theorem transact_consumeFrame (s : State) : transact .consumeFrame s = .next (s.clearRedraw, .frame s.redraw s.fb) := rfl

@[simp] theorem State.clearRedraw_clearRedraw (s : State) : s.clearRedraw.clearRedraw = s.clearRedraw := rfl

/-- A second read-out in a row answers the same frame, not pending, and changes nothing more (R63). -/
theorem transact_consumeFrame_clearRedraw (s : State) :
    transact .consumeFrame s.clearRedraw = .next (s.clearRedraw, .frame false s.fb) := by
  simp [transact_consumeFrame]

/-- Settles O47: the first read-out leaves `s.clearRedraw`, from which the second one is empty. -/
theorem consumeFrameClearsRedraw : Obligations.ConsumeFrameClearsRedraw := by
  unfold Obligations.ConsumeFrameClearsRedraw
  intro s
  have hrun : run [.consumeFrame, .consumeFrame] s =
      .next (s.clearRedraw, [.frame s.redraw s.fb, .frame false s.fb]) :=
    run_cons_next (transact_consumeFrame s) (run_cons_next (transact_consumeFrame_clearRedraw s) rfl)
  exact ⟨s.clearRedraw, s.clearRedraw, hrun, transact_consumeFrame s, s.clearRedraw_redraw, s.clearRedraw_only, rfl⟩

end Sys2Proof.Machine
end

section
/-! SUPPORT. The skips against a byte, 3XNN and 4XNN (spec/42_control_flow.md R67, R68). -/

namespace Sys2Proof

/-- An instruction whose word has its row in the table is decoded from that word (R44). -/
theorem decodeWord_encode {i : Instr} (hi : Laws.EncodesInTable.Statement i) (hw : i.wellFormed = true) :
    decodeWord (encode i) = .ok i := by
  obtain ⟨r, hr, hm, hb⟩ := hi hw
  rw [decodeWord_of_row hr hm, hb]

/-- The word `FXNN` with its fields weighted from the left, as the statements write it (R41). -/
theorem wordXNN_eq_weighted (f : Nat) (x : Reg) (nn : Nat) :
    wordXNN f x nn = trunc16 (f * 0x1000 + 0x100 * x.val + nn) := by
  rw [wordXNN, Nat.mul_comm x.val]

theorem decodeWord_seByte (x : Reg) (nn : Byte) :
    decodeWord (trunc16 (0x3000 + 0x100 * x.val + nn.toNat)) = .ok (.seByte x nn) :=
  wordXNN_eq_weighted 0x3 x nn.toNat ▸ decodeWord_encode (Laws.EncodesInTable.seByte x nn) rfl

theorem decodeWord_sneByte (x : Reg) (nn : Byte) :
    decodeWord (trunc16 (0x4000 + 0x100 * x.val + nn.toNat)) = .ok (.sneByte x nn) :=
  wordXNN_eq_weighted 0x4 x nn.toNat ▸ decodeWord_encode (Laws.EncodesInTable.sneByte x nn) rfl

namespace Machine

theorem exec_seByte (x : Reg) (nn : Byte) (s : State) : exec (.seByte x nn) s = .next (s.skipIf (s.getV x == nn)) := rfl

theorem exec_sneByte (x : Reg) (nn : Byte) (s : State) : exec (.sneByte x nn) s = .next (s.skipIf (s.getV x != nn)) := rfl

/-- A skip goes on by 4 where its condition holds and by 2 elsewhere (R54); `p` is the condition as a statement writes it. -/
theorem State.skipIf_pc_of_iff {c : Bool} {p : Prop} [Decidable p] (s : State) (h : c = true ↔ p) :
    (s.skipIf c).pc = trunc16 (s.pc.toNat + if p then 4 else 2) := by
  by_cases hp : p
  · simp [hp, h.2 hp]
  · have hc : c = false := Bool.eq_false_iff.2 (mt h.1 hp)
    simp [hp, hc]

/-- A skip on equal words (R67, R69), read through their values. -/
theorem State.skipIf_beq_pc {w : Nat} (s : State) (a b : BitVec w) :
    (s.skipIf (a == b)).pc = trunc16 (s.pc.toNat + if a.toNat = b.toNat then 4 else 2) :=
  s.skipIf_pc_of_iff (beq_iff_eq.trans BitVec.toNat_inj.symm)

/-- A skip on unequal words (R68, R70): the skip of the negated condition. -/
theorem State.skipIf_bne_pc {w : Nat} (s : State) (a b : BitVec w) :
    (s.skipIf (a != b)).pc = trunc16 (s.pc.toNat + if a.toNat = b.toNat then 2 else 4) := by
  rw [s.skipIf_pc_of_iff (bne_iff_ne.trans (not_congr BitVec.toNat_inj.symm)), ite_not]

/-- Settles O25: each word decodes by its row of the table, and each instruction is a skip, which writes pc alone. -/
theorem skipsOnByte : Obligations.SkipsOnByte := by
  unfold Obligations.SkipsOnByte
  refine ⟨fun x nn => ⟨decodeWord_seByte x nn, decodeWord_sneByte x nn⟩, fun x nn s => ⟨?_, ?_⟩⟩
  · exact ⟨_, exec_seByte x nn s, s.skipIf_only _, s.skipIf_beq_pc (s.getV x) nn⟩
  · exact ⟨_, exec_sneByte x nn s, s.skipIf_only _, s.skipIf_bne_pc (s.getV x) nn⟩

end Machine
end Sys2Proof
end

section
/-! SUPPORT. The loads and adds of a byte, 6XNN and 7XNN (spec/43_alu.md R73, R74). -/

namespace Sys2Proof

theorem decodeWord_ldByte (x : Reg) (nn : Byte) :
    decodeWord (trunc16 (0x6000 + 0x100 * x.val + nn.toNat)) = .ok (.ldByte x nn) :=
  wordXNN_eq_weighted 0x6 x nn.toNat ▸ decodeWord_encode (Laws.EncodesInTable.ldByte x nn) rfl

theorem decodeWord_addByte (x : Reg) (nn : Byte) :
    decodeWord (trunc16 (0x7000 + 0x100 * x.val + nn.toNat)) = .ok (.addByte x nn) :=
  wordXNN_eq_weighted 0x7 x nn.toNat ▸ decodeWord_encode (Laws.EncodesInTable.addByte x nn) rfl

namespace Machine

theorem exec_ldByte (x : Reg) (nn : Byte) (s : State) : exec (.ldByte x nn) s = .next ((s.setV x nn).advance 2) := rfl

theorem exec_addByte (x : Reg) (nn : Byte) (s : State) :
    exec (.addByte x nn) s = .next ((s.setV x (trunc8 ((s.getV x).toNat + nn.toNat))).advance 2) := rfl

theorem State.setV_advance_only (s : State) (x : Reg) (b : Byte) (n : Nat) :
    OnlyChanges [.v, .pc] s ((s.setV x b).advance n) :=
  (s.setV_only x b).trans ((s.setV x b).advance_only n)

/-- Of the registers only the one written changes, so VF, unless it is that one, is as it was. -/
theorem State.setV_advance_onlyRegs (s : State) (x : Reg) (b : Byte) (n : Nat) :
    OnlyRegs [x] s ((s.setV x b).advance n) :=
  OnlyRegs.of_getV fun r hr => by
    have hne : r ≠ x := fun e => hr (e ▸ List.mem_singleton_self r)
    rw [State.advance_getV, State.setV_getV_of_ne s b hne]

theorem State.setV_advance_getV_self (s : State) (x : Reg) (b : Byte) (n : Nat) :
    ((s.setV x b).advance n).getV x = b := by
  rw [State.advance_getV, State.setV_getV_self]

/-- Settles O31: each word decodes by its row of the table, each instruction writes V[X] and goes on, and `trunc8` takes the
sum of two bytes modulo 256. -/
theorem loadAndAddByte : Obligations.LoadAndAddByte := by
  unfold Obligations.LoadAndAddByte
  refine ⟨fun x nn => ⟨decodeWord_ldByte x nn, decodeWord_addByte x nn⟩, fun x nn s => ⟨?_, ?_⟩⟩
  · exact ⟨_, exec_ldByte x nn s, s.setV_advance_only x nn 2, s.setV_advance_onlyRegs x nn 2, rfl,
      s.setV_advance_getV_self x nn 2⟩
  · refine ⟨_, exec_addByte x nn s, s.setV_advance_only x _ 2, s.setV_advance_onlyRegs x _ 2, rfl, ?_⟩
    rw [State.setV_advance_getV_self, trunc8, BitVec.toNat_ofNat]

end Machine
end Sys2Proof
end

section
/-! SUPPORT. The loads of I, ANNN and FX29 (spec/44_index_memory.md R87, R89). -/

namespace Sys2Proof

/-- The word of ANNN, as the statement writes it, for an address that fits its field (R41). -/
theorem encode_ldI {nnn : Word} (h : nnn.toNat < 0x1000) : encode (.ldI nnn) = trunc16 (0xA000 + nnn.toNat) := by
  rw [encode, wordNNN, Nat.mod_eq_of_lt h]

/-- The word `FXNN` of a row that fixes NN, with X added to the row's pattern as the statements write it (R41). -/
theorem wordXNN_eq_pattern_add (f : Nat) (x : Reg) (nn : Nat) :
    wordXNN f x nn = trunc16 (f * 0x1000 + nn + 0x100 * x.val) := by
  rw [wordXNN_eq_weighted, Nat.add_right_comm]

theorem encode_ldF (x : Reg) : encode (.ldF x) = trunc16 (0xF029 + 0x100 * x.val) :=
  wordXNN_eq_pattern_add 0xF x 0x29

theorem decodeWord_ldI {nnn : Word} (h : nnn.toNat < 0x1000) :
    decodeWord (trunc16 (0xA000 + nnn.toNat)) = .ok (.ldI nnn) :=
  encode_ldI h ▸ decodeWord_encode (Laws.EncodesInTable.ldI nnn) (decide_eq_true h)

theorem decodeWord_ldF (x : Reg) : decodeWord (trunc16 (0xF029 + 0x100 * x.val)) = .ok (.ldF x) :=
  encode_ldF x ▸ decodeWord_encode (Laws.EncodesInTable.ldF x) rfl

namespace Machine

theorem exec_ldI (nnn : Word) (s : State) : exec (.ldI nnn) s = .next ((s.setI nnn).advance 2) := rfl

theorem exec_ldF (x : Reg) (s : State) :
    exec (.ldF x) s = .next ((s.setI (glyphAddress (s.getV x))).advance 2) := rfl

theorem State.setI_advance_only (s : State) (w : Word) (n : Nat) : OnlyChanges [.i, .pc] s ((s.setI w).advance n) :=
  (s.setI_only w).trans ((s.setI w).advance_only n)

/-- A glyph is chosen by the low digit of the byte, and its address is below 80, so `trunc16` loses nothing (R89). -/
theorem glyphAddress_toNat (b : Byte) : (glyphAddress b).toNat = b.toNat % 16 * 5 := by
  have low_digit : b.toNat &&& 0xF = b.toNat % 16 := Nat.and_two_pow_sub_one_eq_mod b.toNat 4
  rw [glyphAddress, low_digit, BitVec.toNat_ofNat, Nat.mod_eq_of_lt (by omega)]

/-- Settles O37: each word decodes by its row of the table, and each instruction writes I and goes on. -/
theorem indexLoads : Obligations.IndexLoads := by
  unfold Obligations.IndexLoads
  refine ⟨fun nnn h => decodeWord_ldI h, decodeWord_ldF, fun nnn s => ?_, fun x s => ?_⟩
  · exact ⟨_, exec_ldI nnn s, s.setI_advance_only nnn 2, rfl, rfl⟩
  · exact ⟨_, exec_ldF x s, s.setI_advance_only _ 2, rfl, glyphAddress_toNat (s.getV x)⟩

end Machine
end Sys2Proof
end

section
/-! SUPPORT. The timer transfers, FX07, FX15 and FX18, and when a tick fires (spec/45_keys_timers.md R95, R97, R98, R107). -/

namespace Sys2Proof

theorem decodeWord_ldVxDt (x : Reg) : decodeWord (trunc16 (0xF007 + 0x100 * x.val)) = .ok (.ldVxDt x) :=
  wordXNN_eq_pattern_add 0xF x 0x07 ▸ decodeWord_encode (Laws.EncodesInTable.ldVxDt x) rfl

theorem decodeWord_ldDtVx (x : Reg) : decodeWord (trunc16 (0xF015 + 0x100 * x.val)) = .ok (.ldDtVx x) :=
  wordXNN_eq_pattern_add 0xF x 0x15 ▸ decodeWord_encode (Laws.EncodesInTable.ldDtVx x) rfl

theorem decodeWord_ldStVx (x : Reg) : decodeWord (trunc16 (0xF018 + 0x100 * x.val)) = .ok (.ldStVx x) :=
  wordXNN_eq_pattern_add 0xF x 0x18 ▸ decodeWord_encode (Laws.EncodesInTable.ldStVx x) rfl

namespace Machine

theorem exec_ldVxDt (x : Reg) (s : State) : exec (.ldVxDt x) s = .next ((s.setV x s.dt).advance 2) := rfl

theorem exec_ldDtVx (x : Reg) (s : State) : exec (.ldDtVx x) s = .next ((s.setDt (s.getV x)).advance 2) := rfl

theorem exec_ldStVx (x : Reg) (s : State) : exec (.ldStVx x) s = .next ((s.setSt (s.getV x)).advance 2) := rfl

theorem State.setDt_advance_only (s : State) (b : Byte) (n : Nat) : OnlyChanges [.dt, .pc] s ((s.setDt b).advance n) :=
  (s.setDt_only b).trans ((s.setDt b).advance_only n)

theorem State.setSt_advance_only (s : State) (b : Byte) (n : Nat) : OnlyChanges [.st, .pc] s ((s.setSt b).advance n) :=
  (s.setSt_only b).trans ((s.setSt b).advance_only n)

theorem State.tickSound_fires_iff (s : State) : s.tickSound.2 = true ↔ s.st.toNat = 1 := by
  unfold State.tickSound
  split
  · next h => exact iff_of_true rfl h
  · next h => split <;> exact iff_of_false Bool.false_ne_true h

/-- A tick fires exactly when ST goes from 1 to 0 (R107); the delay half, which runs first, leaves ST alone. -/
theorem State.tick_fires_iff (s : State) : s.tick.2 = true ↔ s.st.toNat = 1 := by
  have hst : s.tickDelay.st = s.st := s.tickDelay_only .st (by decide)
  rw [State.tick, State.tickSound_fires_iff, hst]

/-- A step's reply is its warning and the fault register, so `sound_event` is not among its outputs (R4, R98). -/
theorem transact_step_ne_ticked {rand : Byte} {s t : State} {r : Reply} (h : transact (.step rand) s = .next (t, r))
    (fires : Bool) : r ≠ .ticked fires := by
  obtain ⟨u, -, -, rfl⟩ := stepWith_next h
  exact Reply.noConfusion

/-- Settles O51: each word decodes by its row of the table, each instruction moves one byte and goes on, and only a tick
whose ST is 1 fires. -/
theorem timerTransfers : Obligations.TimerTransfers := by
  unfold Obligations.TimerTransfers
  refine ⟨fun x => ⟨decodeWord_ldVxDt x, decodeWord_ldDtVx x, decodeWord_ldStVx x⟩, fun x s => ⟨?_, ?_, ?_⟩,
    fun rand s t r fires h => transact_step_ne_ticked h fires⟩
  · exact ⟨_, exec_ldVxDt x s, s.setV_advance_only x s.dt 2, s.setV_advance_onlyRegs x s.dt 2, rfl,
      s.setV_advance_getV_self x s.dt 2⟩
  · exact ⟨_, exec_ldDtVx x s, s.setDt_advance_only _ 2, rfl, rfl⟩
  · exact ⟨_, exec_ldStVx x s, s.setSt_advance_only _ 2, rfl, rfl, State.tick_fires_iff _⟩

end Machine
end Sys2Proof
end

section
/-! SUPPORT. The decoder and the encoder are inverse to each other (spec/30_encoding.md R39, R41, R42, R44, R47). -/

namespace Sys2Proof

/-! ### Decoding an encoded instruction -/

/-- Every instruction has its row in the table. -/
theorem encodesInTable (i : Instr) : Laws.EncodesInTable.Statement i := by
  cases i with
  | cls => exact Laws.EncodesInTable.cls
  | ret => exact Laws.EncodesInTable.ret
  | jp nnn => exact Laws.EncodesInTable.jp nnn
  | call nnn => exact Laws.EncodesInTable.call nnn
  | seByte x nn => exact Laws.EncodesInTable.seByte x nn
  | sneByte x nn => exact Laws.EncodesInTable.sneByte x nn
  | seReg x y => exact Laws.EncodesInTable.seReg x y
  | sneReg x y => exact Laws.EncodesInTable.sneReg x y
  | ldByte x nn => exact Laws.EncodesInTable.ldByte x nn
  | addByte x nn => exact Laws.EncodesInTable.addByte x nn
  | ldReg x y => exact Laws.EncodesInTable.ldReg x y
  | orReg x y => exact Laws.EncodesInTable.orReg x y
  | andReg x y => exact Laws.EncodesInTable.andReg x y
  | xorReg x y => exact Laws.EncodesInTable.xorReg x y
  | addReg x y => exact Laws.EncodesInTable.addReg x y
  | subReg x y => exact Laws.EncodesInTable.subReg x y
  | shr x y => exact Laws.EncodesInTable.shr x y
  | subnReg x y => exact Laws.EncodesInTable.subnReg x y
  | shl x y => exact Laws.EncodesInTable.shl x y
  | ldI nnn => exact Laws.EncodesInTable.ldI nnn
  | jpV0 nnn => exact Laws.EncodesInTable.jpV0 nnn
  | rnd x nn => exact Laws.EncodesInTable.rnd x nn
  | drw x y n => exact Laws.EncodesInTable.drw x y n
  | skp x => exact Laws.EncodesInTable.skp x
  | sknp x => exact Laws.EncodesInTable.sknp x
  | ldVxDt x => exact Laws.EncodesInTable.ldVxDt x
  | ldDtVx x => exact Laws.EncodesInTable.ldDtVx x
  | ldStVx x => exact Laws.EncodesInTable.ldStVx x
  | addI x => exact Laws.EncodesInTable.addI x
  | ldVxK x => exact Laws.EncodesInTable.ldVxK x
  | ldF x => exact Laws.EncodesInTable.ldF x
  | ldB x => exact Laws.EncodesInTable.ldB x
  | storeRegs x => exact Laws.EncodesInTable.storeRegs x
  | loadRegs x => exact Laws.EncodesInTable.loadRegs x

theorem decodeWord_of_encode {i : Instr} {w : Word} (he : encode i = w) (hw : i.wellFormed = true) :
    decodeWord w = .ok i :=
  he ▸ decodeWord_encode (encodesInTable i) hw

/-- Bytes decode as the word they join to, which takes the two of them (R39). -/
theorem decode_cons_cons (hi lo : Byte) (rest : List Byte) :
    decode (hi :: lo :: rest) = (decodeWord (joinBytes hi lo)).map fun i => (i, rest) := by
  rw [decode]
  cases decodeWord (joinBytes hi lo) <;> rfl

theorem decode_splitWord {op : Word} {i : Instr} (h : decodeWord op = .ok i) (rest : List Byte) :
    decode ((splitWord op).1 :: (splitWord op).2 :: rest) = .ok (i, rest) := by
  rw [decode_cons_cons, Machine.joinBytes_splitWord, h]
  rfl

/-- Settles O2: the row of an instruction decodes its word, and the two bytes join to that word again. -/
theorem decodeOfEncodeIsIdentity : Obligations.DecodeOfEncodeIsIdentity := by
  unfold Obligations.DecodeOfEncodeIsIdentity
  intro i hw
  have hd : decodeWord (encode i) = .ok i := decodeWord_of_encode rfl hw
  exact ⟨hd, decode_splitWord hd⟩

/-! ### Which words match a row, by its mask -/

/-- A word by its four digits, as numbers (R41). -/
theorem word_eq_digits (op : Word) :
    op = nibbles (BitVec.ofNat 4 (op.toNat / 0x1000)) (BitVec.ofNat 4 (op.toNat / 0x100)) (BitVec.ofNat 4 (op.toNat / 0x10))
      (BitVec.ofNat 4 op.toNat) := by
  apply BitVec.eq_of_toNat_eq
  have := op.isLt
  simp only [nibbles_toNat, BitVec.toNat_ofNat]
  omega

theorem and_family_toNat (op : Word) : (op &&& 0xF000).toNat = op.toNat / 0x1000 * 0x1000 := by
  have := op.isLt
  conv_lhs => rw [word_eq_digits op, mask_f, nibbles_toNat]
  simp only [BitVec.toNat_ofNat, BitVec.ofNat_eq_ofNat]
  omega

theorem and_lowDigit_toNat (op : Word) : (op &&& 0xF00F).toNat = op.toNat / 0x1000 * 0x1000 + op.toNat % 0x10 := by
  have := op.isLt
  conv_lhs => rw [word_eq_digits op, mask_fn, nibbles_toNat]
  simp only [BitVec.toNat_ofNat, BitVec.ofNat_eq_ofNat]
  omega

theorem and_lowByte_toNat (op : Word) : (op &&& 0xF0FF).toNat = op.toNat / 0x1000 * 0x1000 + op.toNat % 0x100 := by
  have := op.isLt
  conv_lhs => rw [word_eq_digits op, mask_fyn, nibbles_toNat]
  simp only [BitVec.toNat_ofNat, BitVec.ofNat_eq_ofNat]
  omega

theorem matches_family_iff (op p : Word) (build : Word → Instr) :
    (Row.mk 0xF000 p build).matches op = true ↔ op.toNat / 0x1000 * 0x1000 = p.toNat := by
  rw [Row.matches, beq_iff_eq, ← BitVec.toNat_inj, and_family_toNat]

theorem matches_lowDigit_iff (op p : Word) (build : Word → Instr) :
    (Row.mk 0xF00F p build).matches op = true ↔ op.toNat / 0x1000 * 0x1000 + op.toNat % 0x10 = p.toNat := by
  rw [Row.matches, beq_iff_eq, ← BitVec.toNat_inj, and_lowDigit_toNat]

theorem matches_lowByte_iff (op p : Word) (build : Word → Instr) :
    (Row.mk 0xF0FF p build).matches op = true ↔ op.toNat / 0x1000 * 0x1000 + op.toNat % 0x100 = p.toNat := by
  rw [Row.matches, beq_iff_eq, ← BitVec.toNat_inj, and_lowByte_toNat]

theorem matches_word_iff (op p : Word) (build : Word → Instr) :
    (Row.mk 0xFFFF p build).matches op = true ↔ op.toNat = p.toNat := by
  have all : op &&& 0xFFFF = op := BitVec.and_allOnes
  rw [Row.matches, beq_iff_eq, ← BitVec.toNat_inj, all]

/-! ### A matching row keeps every bit of the word -/

/-- On the words it matches, a row builds a well-formed instruction whose encoding is the word. -/
def Row.Faithful (r : Row) : Prop :=
  ∀ op : Word, r.matches op = true → (r.build op).wellFormed = true ∧ encode (r.build op) = op

theorem fieldX_val (op : Word) : (fieldX op).val = op.toNat / 0x100 % 16 := by
  simp only [fieldX, BitVec.toFin_extractLsb', Fin.val_ofNat, Nat.shiftRight_eq_div_pow]

theorem fieldY_val (op : Word) : (fieldY op).val = op.toNat / 0x10 % 16 := by
  simp only [fieldY, BitVec.toFin_extractLsb', Fin.val_ofNat, Nat.shiftRight_eq_div_pow]

theorem fieldN_val (op : Word) : (fieldN op).val = op.toNat % 16 := by
  simp [fieldN, BitVec.toFin_extractLsb']

theorem fieldNN_toNat (op : Word) : (fieldNN op).toNat = op.toNat % 0x100 := by
  simp [fieldNN, BitVec.extractLsb'_toNat]

theorem fieldNNN_toNat (op : Word) : (fieldNNN op).toNat = op.toNat % 0x1000 := by
  simp only [fieldNNN, BitVec.toNat_setWidth, BitVec.extractLsb'_toNat, Nat.shiftRight_zero]
  omega

theorem fits12_fieldNNN (op : Word) : fits12 (fieldNNN op) = true := by
  rw [fits12, decide_eq_true_eq, fieldNNN_toNat]
  exact Nat.mod_lt _ (by decide)

/-- A row `FNNN`: the family digit is matched and the rest is the address. -/
theorem Row.Faithful.of_NNN (f : Nat) (build : Word → Instr)
    (hw : ∀ nnn, (build nnn).wellFormed = fits12 nnn := by intros; rfl)
    (he : ∀ nnn, encode (build nnn) = wordNNN f nnn := by intros; rfl) :
    Row.Faithful ⟨0xF000, trunc16 (f * 0x1000), fun op => build (fieldNNN op)⟩ := by
  intro op hm
  rw [matches_family_iff, BitVec.toNat_ofNat] at hm
  refine ⟨(hw _).trans (fits12_fieldNNN op), (he _).trans (BitVec.eq_of_toNat_eq ?_)⟩
  have := op.isLt
  rw [wordNNN, BitVec.toNat_ofNat, fieldNNN_toNat]
  omega

/-- A row `FXNN`: the family digit is matched, X and NN are operands. -/
theorem Row.Faithful.of_XNN (f : Nat) (build : Reg → Byte → Instr)
    (hw : ∀ x nn, (build x nn).wellFormed = true := by intros; rfl)
    (he : ∀ x nn, encode (build x nn) = wordXNN f x nn.toNat := by intros; rfl) :
    Row.Faithful ⟨0xF000, trunc16 (f * 0x1000), fun op => build (fieldX op) (fieldNN op)⟩ := by
  intro op hm
  rw [matches_family_iff, BitVec.toNat_ofNat] at hm
  refine ⟨hw _ _, (he _ _).trans (BitVec.eq_of_toNat_eq ?_)⟩
  have := op.isLt
  rw [wordXNN, BitVec.toNat_ofNat, fieldX_val, fieldNN_toNat]
  omega

/-- A row `FXYN` with N an operand. -/
theorem Row.Faithful.of_XYN (f : Nat) (build : Reg → Reg → Fin 16 → Instr)
    (hw : ∀ x y n, (build x y n).wellFormed = true := by intros; rfl)
    (he : ∀ x y n, encode (build x y n) = wordXYN f x y n.val := by intros; rfl) :
    Row.Faithful ⟨0xF000, trunc16 (f * 0x1000), fun op => build (fieldX op) (fieldY op) (fieldN op)⟩ := by
  intro op hm
  rw [matches_family_iff, BitVec.toNat_ofNat] at hm
  refine ⟨hw _ _ _, (he _ _ _).trans (BitVec.eq_of_toNat_eq ?_)⟩
  have := op.isLt
  rw [wordXYN, BitVec.toNat_ofNat, fieldX_val, fieldY_val, fieldN_val]
  omega

/-- A row `FXYn` that fixes the low digit too. -/
theorem Row.Faithful.of_XY (f n : Nat) (build : Reg → Reg → Instr)
    (hw : ∀ x y, (build x y).wellFormed = true := by intros; rfl)
    (he : ∀ x y, encode (build x y) = wordXYN f x y n := by intros; rfl) :
    Row.Faithful ⟨0xF00F, trunc16 (f * 0x1000 + n), fun op => build (fieldX op) (fieldY op)⟩ := by
  intro op hm
  rw [matches_lowDigit_iff, BitVec.toNat_ofNat] at hm
  refine ⟨hw _ _, (he _ _).trans (BitVec.eq_of_toNat_eq ?_)⟩
  have := op.isLt
  rw [wordXYN, BitVec.toNat_ofNat, fieldX_val, fieldY_val]
  omega

/-- A row `FXnn` that fixes the low byte too. -/
theorem Row.Faithful.of_X (f b : Nat) (build : Reg → Instr)
    (hw : ∀ x, (build x).wellFormed = true := by intros; rfl)
    (he : ∀ x, encode (build x) = wordXNN f x b := by intros; rfl) :
    Row.Faithful ⟨0xF0FF, trunc16 (f * 0x1000 + b), fun op => build (fieldX op)⟩ := by
  intro op hm
  rw [matches_lowByte_iff, BitVec.toNat_ofNat] at hm
  refine ⟨hw _, (he _).trans (BitVec.eq_of_toNat_eq ?_)⟩
  have := op.isLt
  rw [wordXNN, BitVec.toNat_ofNat, fieldX_val]
  omega

/-- A row that fixes the whole word. -/
theorem Row.Faithful.of_word (i : Instr) (hw : i.wellFormed = true := by rfl) :
    Row.Faithful ⟨0xFFFF, encode i, fun _ => i⟩ :=
  fun op hm => ⟨hw, (BitVec.eq_of_toNat_eq ((matches_word_iff op _ _).1 hm)).symm⟩

/-! The rows as R44 lists them, each by its form. -/

theorem rowsControl_faithful : ∀ r ∈ rowsControl, r.Faithful := by
  simp only [rowsControl, List.forall_mem_cons, List.not_mem_nil, false_imp_iff, implies_true, and_true]
  exact ⟨.of_word .cls, .of_word .ret,
    .of_NNN 0x1 .jp, .of_NNN 0x2 .call,
    .of_XNN 0x3 .seByte, .of_XNN 0x4 .sneByte,
    .of_XY 0x5 0x0 .seReg, .of_XY 0x9 0x0 .sneReg⟩

theorem rowsAlu_faithful : ∀ r ∈ rowsAlu, r.Faithful := by
  simp only [rowsAlu, List.forall_mem_cons, List.not_mem_nil, false_imp_iff, implies_true, and_true]
  exact ⟨.of_XNN 0x6 .ldByte, .of_XNN 0x7 .addByte,
    .of_XY 0x8 0x0 .ldReg, .of_XY 0x8 0x1 .orReg, .of_XY 0x8 0x2 .andReg, .of_XY 0x8 0x3 .xorReg,
    .of_XY 0x8 0x4 .addReg, .of_XY 0x8 0x5 .subReg, .of_XY 0x8 0x6 .shr, .of_XY 0x8 0x7 .subnReg,
    .of_XY 0x8 0xE .shl⟩

theorem rowsMiddle_faithful : ∀ r ∈ rowsMiddle, r.Faithful := by
  simp only [rowsMiddle, List.forall_mem_cons, List.not_mem_nil, false_imp_iff, implies_true, and_true]
  exact ⟨.of_NNN 0xA .ldI, .of_NNN 0xB .jpV0,
    .of_XNN 0xC .rnd,
    .of_XYN 0xD .drw,
    .of_X 0xE 0x9E .skp, .of_X 0xE 0xA1 .sknp⟩

theorem rowsMisc_faithful : ∀ r ∈ rowsMisc, r.Faithful := by
  simp only [rowsMisc, List.forall_mem_cons, List.not_mem_nil, false_imp_iff, implies_true, and_true]
  exact ⟨.of_X 0xF 0x07 .ldVxDt, .of_X 0xF 0x15 .ldDtVx, .of_X 0xF 0x18 .ldStVx,
    .of_X 0xF 0x1E .addI, .of_X 0xF 0x0A .ldVxK, .of_X 0xF 0x29 .ldF,
    .of_X 0xF 0x33 .ldB, .of_X 0xF 0x55 .storeRegs, .of_X 0xF 0x65 .loadRegs⟩

theorem decodeTable_faithful {r : Row} (hr : r ∈ decodeTable) : r.Faithful := by
  simp only [decodeTable, List.mem_append] at hr
  obtain ((hr | hr) | hr) | hr := hr
  · exact rowsControl_faithful r hr
  · exact rowsAlu_faithful r hr
  · exact rowsMiddle_faithful r hr
  · exact rowsMisc_faithful r hr

/-- Settles O3: the row that decoded the word keeps each of its bits, in the mask or in an operand. -/
theorem encodeOfDecodeIsIdentity : Obligations.EncodeOfDecodeIsIdentity := by
  unfold Obligations.EncodeOfDecodeIsIdentity
  intro op i h
  obtain ⟨r, hr, hm, rfl⟩ := row_of_decodeWord h
  exact decodeTable_faithful hr op hm

/-! ### Each word matches one row or none -/

theorem decodeTable_row_unique {op : Word} {j k : Nat} (hj : j < decodeTable.length) (hk : k < decodeTable.length)
    (mj : decodeTable[j].matches op = true) (mk : decodeTable[k].matches op = true) : j = k := by
  have apart {a b : Nat} (ha : a < decodeTable.length) (hb : b < decodeTable.length) (hlt : a < b)
      (ma : decodeTable[a].matches op = true) : decodeTable[b].matches op = false :=
    Row.Apart.not_both (List.pairwise_iff_getElem.1 decodeTable_apart a b ha hb hlt) op ma
  rcases Nat.lt_trichotomy j k with h | h | h
  · exact absurd mk (by rw [apart hj hk h mj]; decide)
  · exact h
  · exact absurd mj (by rw [apart hk hj h mk]; decide)

/-- Settles O5: a decoded word was decoded by a row, and no other row of the table agrees with it. -/
theorem everyWordHasOneDecoding : Obligations.EveryWordHasOneDecoding := by
  unfold Obligations.EveryWordHasOneDecoding
  refine ⟨rfl, fun op => ?_⟩
  cases hd : decodeWord op with
  | ok i =>
    obtain ⟨r, hr, hm, hb⟩ := row_of_decodeWord hd
    obtain ⟨k, hk, rfl⟩ := List.getElem_of_mem hr
    refine .inl ⟨⟨k, hk⟩, fun j => ⟨fun mj => Fin.ext (decodeTable_row_unique j.isLt hk mj hm), ?_⟩, congrArg _ hb.symm⟩
    rintro rfl
    exact hm
  | error e =>
    obtain ⟨rfl, hn⟩ := no_row_of_decodeWord hd
    exact .inr ⟨hn, rfl⟩

/-! ### The unknown words -/

theorem decodeWord_unknown_iff (op : Word) :
    decodeWord op = .error (.unknownOpcode op) ↔ ∀ r ∈ decodeTable, r.matches op = false := by
  refine ⟨fun h => (no_row_of_decodeWord h).2, fun hn => ?_⟩
  cases hd : decodeWord op with
  | ok i =>
    obtain ⟨r, hr, hm, -⟩ := row_of_decodeWord hd
    rw [hn r hr] at hm
    cases hm
  | error e => rw [(no_row_of_decodeWord hd).1]

/-- The words that R45 lists as unknown, by their digits. -/
def unknownWord (w : Nat) : Prop :=
  (w / 0x1000 = 0x0 ∧ w ≠ 0x00E0 ∧ w ≠ 0x00EE) ∨ (w / 0x1000 = 0x5 ∧ w % 0x10 ≠ 0) ∨ (w / 0x1000 = 0x9 ∧ w % 0x10 ≠ 0) ∨
  (w / 0x1000 = 0x8 ∧ w % 0x10 ∈ [0x8, 0x9, 0xA, 0xB, 0xC, 0xD, 0xF]) ∨ (w / 0x1000 = 0xE ∧ w % 0x100 ∉ [0x9E, 0xA1]) ∨
  (w / 0x1000 = 0xF ∧ w % 0x100 ∉ [0x07, 0x0A, 0x15, 0x18, 0x1E, 0x29, 0x33, 0x55, 0x65])

theorem not_matches_iff {r : Row} {op : Word} {p : Prop} (h : r.matches op = true ↔ p) : r.matches op = false ↔ ¬ p := by
  rw [← h, Bool.not_eq_true]

theorem rowsControl_unmatched (op : Word) : (∀ r ∈ rowsControl, r.matches op = false) ↔
    (op.toNat / 0x1000 = 0 → op.toNat ≠ 0x00E0 ∧ op.toNat ≠ 0x00EE) ∧ op.toNat / 0x1000 ∉ [1, 2, 3, 4] ∧
    (op.toNat / 0x1000 = 5 ∨ op.toNat / 0x1000 = 9 → op.toNat % 0x10 ≠ 0) := by
  simp only [rowsControl, List.forall_mem_cons, List.not_mem_nil, false_imp_iff, implies_true, and_true,
    not_matches_iff (matches_word_iff ..), not_matches_iff (matches_family_iff ..),
    not_matches_iff (matches_lowDigit_iff ..)]
  simp only [BitVec.ofNat_eq_ofNat, BitVec.toNat_ofNat, List.mem_cons, List.not_mem_nil, or_false]
  omega

theorem rowsAlu_unmatched (op : Word) : (∀ r ∈ rowsAlu, r.matches op = false) ↔
    op.toNat / 0x1000 ∉ [6, 7] ∧ (op.toNat / 0x1000 = 8 → op.toNat % 0x10 ∈ [0x8, 0x9, 0xA, 0xB, 0xC, 0xD, 0xF]) := by
  simp only [rowsAlu, List.forall_mem_cons, List.not_mem_nil, false_imp_iff, implies_true, and_true,
    not_matches_iff (matches_family_iff ..), not_matches_iff (matches_lowDigit_iff ..)]
  simp only [BitVec.ofNat_eq_ofNat, BitVec.toNat_ofNat, List.mem_cons, List.not_mem_nil, or_false]
  omega

theorem rowsMiddle_unmatched (op : Word) : (∀ r ∈ rowsMiddle, r.matches op = false) ↔
    op.toNat / 0x1000 ∉ [0xA, 0xB, 0xC, 0xD] ∧ (op.toNat / 0x1000 = 0xE → op.toNat % 0x100 ∉ [0x9E, 0xA1]) := by
  simp only [rowsMiddle, List.forall_mem_cons, List.not_mem_nil, false_imp_iff, implies_true, and_true,
    not_matches_iff (matches_family_iff ..), not_matches_iff (matches_lowByte_iff ..)]
  simp only [BitVec.ofNat_eq_ofNat, BitVec.toNat_ofNat, List.mem_cons, List.not_mem_nil, or_false]
  omega

theorem rowsMisc_unmatched (op : Word) : (∀ r ∈ rowsMisc, r.matches op = false) ↔
    (op.toNat / 0x1000 = 0xF → op.toNat % 0x100 ∉ [0x07, 0x0A, 0x15, 0x18, 0x1E, 0x29, 0x33, 0x55, 0x65]) := by
  simp only [rowsMisc, List.forall_mem_cons, List.not_mem_nil, false_imp_iff, implies_true, and_true,
    not_matches_iff (matches_lowByte_iff ..)]
  simp only [BitVec.ofNat_eq_ofNat, BitVec.toNat_ofNat, List.mem_cons, List.not_mem_nil, or_false]
  omega

theorem no_row_iff_unknownWord (op : Word) :
    (∀ r ∈ decodeTable, r.matches op = false) ↔ unknownWord op.toNat := by
  have := op.isLt
  have family_lt : op.toNat / 0x1000 < 16 := by omega
  simp only [decodeTable, List.forall_mem_append, rowsControl_unmatched, rowsAlu_unmatched, rowsMiddle_unmatched,
    rowsMisc_unmatched, unknownWord]
  interval_cases h : op.toNat / 0x1000 <;> simp

/-- A word is unknown exactly when R45 lists it. -/
theorem decodeWord_unknown_iff_unknownWord (op : Word) :
    decodeWord op = .error (.unknownOpcode op) ↔ unknownWord op.toNat :=
  (decodeWord_unknown_iff op).trans (no_row_iff_unknownWord op)

/-- Settles O4: the rows of the table leave the listed words over, and a step on one of them only goes on to the next. -/
theorem unknownWordsAreTheListedOnes : Obligations.UnknownWordsAreTheListedOnes := by
  unfold Obligations.UnknownWordsAreTheListedOnes
  refine ⟨fun op => ?_, fun s op hf hfetch hd => ?_⟩
  · rw [decodeWord_unknown_iff_unknownWord, unknownWord]
  · exact ⟨s.skipUnknown, Machine.step_unknown hf hfetch hd, hf, rfl⟩

/-! ### The skips on two registers, 5XY0 and 9XY0 -/

/-- The word `FXYN` with its fields weighted from the left, as the statements write it (R41). -/
theorem wordXYN_eq_weighted (f : Nat) (x y : Reg) (n : Nat) :
    wordXYN f x y n = trunc16 (f * 0x1000 + 0x100 * x.val + 0x10 * y.val + n) := by
  rw [wordXYN, Nat.mul_comm x.val, Nat.mul_comm y.val]

/-- The word `FXYn` of a row that fixes the low digit, with X and Y added to the row's pattern. -/
theorem wordXYN_eq_pattern_add (f : Nat) (x y : Reg) (n : Nat) :
    wordXYN f x y n = trunc16 (f * 0x1000 + n + 0x100 * x.val + 0x10 * y.val) := by
  rw [wordXYN_eq_weighted]
  congr 1
  omega

theorem decodeWord_seReg (x y : Reg) : decodeWord (trunc16 (0x5000 + 0x100 * x.val + 0x10 * y.val)) = .ok (.seReg x y) :=
  decodeWord_of_encode (wordXYN_eq_pattern_add 0x5 x y 0) rfl

theorem decodeWord_sneReg (x y : Reg) : decodeWord (trunc16 (0x9000 + 0x100 * x.val + 0x10 * y.val)) = .ok (.sneReg x y) :=
  decodeWord_of_encode (wordXYN_eq_pattern_add 0x9 x y 0) rfl

/-- In the families 5 and 9 a word whose low digit is not 0 is unknown (R45). -/
theorem decodeWord_skipReg_unknown {f : Nat} (hf : f = 5 ∨ f = 9) (x y : Reg) {n : Nat} (h0 : 0 < n) (hn : n < 16) :
    ∃ e, decodeWord (trunc16 (f * 0x1000 + 0x100 * x.val + 0x10 * y.val + n)) = .error e := by
  refine ⟨_, (decodeWord_unknown_iff_unknownWord _).2 ?_⟩
  have hx := x.isLt
  have hy := y.isLt
  rw [unknownWord, BitVec.toNat_ofNat]
  omega

namespace Machine

theorem exec_seReg (x y : Reg) (s : State) : exec (.seReg x y) s = .next (s.skipIf (s.getV x == s.getV y)) := rfl

theorem exec_sneReg (x y : Reg) (s : State) : exec (.sneReg x y) s = .next (s.skipIf (s.getV x != s.getV y)) := rfl

/-- Settles O26: as O25 with a register in the place of the byte; the other low digits are among the words R45 lists. -/
theorem skipsOnRegister : Obligations.SkipsOnRegister := by
  unfold Obligations.SkipsOnRegister
  refine ⟨fun x y => ⟨decodeWord_seReg x y, decodeWord_sneReg x y⟩, fun x y n h0 hn => ⟨?_, ?_⟩, fun x y s => ⟨?_, ?_⟩⟩
  · exact decodeWord_skipReg_unknown (.inl rfl) x y h0 hn
  · exact decodeWord_skipReg_unknown (.inr rfl) x y h0 hn
  · exact ⟨_, exec_seReg x y s, s.skipIf_only _, s.skipIf_beq_pc (s.getV x) (s.getV y)⟩
  · exact ⟨_, exec_sneReg x y s, s.skipIf_only _, s.skipIf_bne_pc (s.getV x) (s.getV y)⟩

/-- Settles O1: each word is looked up in the table. -/
theorem writtenWordsDecode : Obligations.WrittenWordsDecode := by
  unfold Obligations.WrittenWordsDecode
  decide

end Machine
end Sys2Proof
end

section
/-! SUPPORT. Runs, and the invariant of the legal states (spec/10_state.md R20, R25; spec/60_exceptions.md R99, R100). -/

namespace Sys2Proof

open Machine

theorem LegalState.of_running {s : State} (hwf : s.mem.wf = true) (hrun : s.fault = none) : LegalState s :=
  ⟨hwf, by rw [FaultExplained, hrun]; trivial⟩

/-- A legal state stays legal as long as memory is canonical and neither the fault register nor SP moves. -/
theorem LegalState.of_same {s t : State} (h : LegalState s) (hwf : t.mem.wf = true) (hfault : t.fault = s.fault)
    (hsp : t.sp = s.sp) : LegalState t :=
  ⟨hwf, by simpa only [FaultExplained, hfault, hsp] using h.2⟩

end Sys2Proof

namespace Sys2Proof.Machine

/-! ### How an instruction leaves memory and the fault register -/

/-- From `s` the outcome is a completed state with the fault register of `s` and memory still canonical, or a fault that `s`
explains, raised on `s` itself. -/
inductive Concludes (s : State) : Host.Outcome State Fault Refusal → Prop where
  /-- completed -/
  | completes {t : State} (hfault : t.fault = s.fault) (hmem : s.mem.wf = true → t.mem.wf = true) : Concludes s (.next t)
  /-- a fault raised for a reason that the state shows -/
  | raises {f : Fault} (h : FaultExplained (s.raise f)) : Concludes s (.next (s.raise f))

theorem Concludes.guarded {s t : State} {a n : Nat} (ha : a < 65536) (hfault : t.fault = s.fault)
    (hmem : n = 0 ∨ a + n ≤ Config.memSize → s.mem.wf = true → t.mem.wf = true) : Concludes s (s.guarded a n t) := by
  rcases guarded_cases s t ha with ⟨e, hfits⟩ | ⟨w, hw, e⟩
  · exact e ▸ .completes hfault (hmem hfits)
  · exact e ▸ .raises hw

theorem State.storeBlock_wf {s : State} {bs : List Byte} {n : Nat} (hlen : bs.length ≤ n)
    (hfits : n = 0 ∨ s.blockBase + n ≤ Config.memSize) (hwf : s.mem.wf = true) : (s.storeBlock bs).mem.wf = true := by
  rcases hfits with rfl | hfits
  · rw [List.length_eq_zero_iff.1 (Nat.le_zero.1 hlen)]
    exact hwf
  · exact Memory.writeBlock_wf bs hwf (by omega)

theorem State.regsUpTo_length (s : State) (x : Reg) : (s.regsUpTo x).length = x.val + 1 := by
  have := x.isLt
  rw [State.regsUpTo, List.length_take, Vector.length_toList]
  omega

theorem execRet_concludes (s : State) : Concludes s (execRet s) := by
  by_cases h : s.sp.val = 0
  · simpa only [execRet, pop_empty h] using .raises (f := .stackUnderflow) h
  · simpa only [execRet, pop_ok h] using .completes (t := (s.setSp _).jump _) rfl id

theorem execCall_concludes (s : State) (nnn : Word) : Concludes s (execCall nnn s) := by
  by_cases h : s.sp.val < 16
  · simpa only [execCall, push_ok h] using .completes (t := ((s.setEntry _ _).setSp _).jump _) rfl id
  · have hfull : s.sp.val = 16 := by omega
    simpa only [execCall, push_full hfull] using .raises (f := .stackOverflow) hfull

theorem skipIf_concludes (s : State) (c : Bool) : Concludes s (.next (s.skipIf c)) :=
  .completes (s.skipIf_fault c) fun h => by rwa [s.skipIf_mem c]

theorem skipOnKey_concludes (s : State) (x : Reg) (want : Bool) : Concludes s (s.skipOnKey x want) := by
  by_cases h : (s.getV x).toNat < 16
  · simpa only [State.skipOnKey, keyOperand_ok h, settle_ok] using skipIf_concludes s _
  · have hbig : 15 < (s.getV x).toNat := by omega
    simpa only [State.skipOnKey, keyOperand_error hbig] using .raises (f := .keyIndexFault (s.getV x)) hbig

theorem execLdVxK_concludes (s : State) (x : Reg) : Concludes s (execLdVxK x s) := by
  unfold execLdVxK
  cases s.lowestKey with
  | some k => exact .completes rfl id
  | none => exact .completes rfl id

theorem exec_concludes (i : Instr) (s : State) : Concludes s (exec i s) := by
  cases i with
  | ret => exact execRet_concludes s
  | call nnn => exact execCall_concludes s nnn
  | seByte x nn | sneByte x nn | seReg x y | sneReg x y => exact skipIf_concludes s _
  | skp x | sknp x => exact skipOnKey_concludes s x _
  | ldVxK x => exact execLdVxK_concludes s x
  | drw x y n | loadRegs x => exact .guarded s.blockBase_lt rfl fun _ h => h
  | ldB x => exact .guarded s.blockBase_lt rfl (State.storeBlock_wf (bs := bcdDigits _) (le_refl 3))
  | storeRegs x => exact .guarded s.blockBase_lt rfl (State.storeBlock_wf (s.regsUpTo_length x).le)
  | _ => exact .completes rfl id

/-! ### A step keeps the state legal -/

theorem Concludes.legal {s t : State} (h : Concludes s (.next t)) (hwf : s.mem.wf = true) (hrun : s.fault = none) :
    LegalState t := by
  cases h with
  | completes hfault hmem => exact .of_running (hmem hwf) (hfault.trans hrun)
  | raises hf => exact ⟨hwf, hf⟩

theorem step_legal {s t : State} (h : LegalState s) (hs : step s = .next t) : LegalState t := by
  obtain ⟨hwf, -⟩ := id h
  rcases step_cases s with ⟨-, e⟩ | ⟨-, w, hw, -, e⟩ | ⟨hrun, op, -, -, e⟩ | ⟨hrun, op, i, -, -, e⟩
  · cases e.symm.trans hs; exact h
  · cases e.symm.trans hs; exact ⟨hwf, hw⟩
  · cases e.symm.trans hs; exact .of_running hwf hrun
  · exact Concludes.legal (e.symm.trans hs ▸ exec_concludes i s) hwf hrun

/-- Settles O20, from what each instruction does to memory and to the fault register. -/
theorem stepKeepsStateLegal : Obligations.StepKeepsStateLegal := by
  unfold Obligations.StepKeepsStateLegal
  exact fun s t => step_legal

/-- Settles O22: the reset memory lists nothing and no fault is recorded. -/
theorem resetStateIsLegal : Obligations.ResetStateIsLegal := by
  unfold Obligations.ResetStateIsLegal
  exact .of_running reset_mem_wf rfl

/-! ### Every transaction keeps the state legal -/

/-- An image within the bound ends inside memory (R33). -/
theorem image_fits {img : List Byte} (h : img.length ≤ Config.maxProgram) :
    Config.programBase + img.length ≤ Config.memSize :=
  Nat.add_le_add_left h Config.programBase

theorem State.loadProgram_legal {s : State} (h : LegalState s) (img : List Byte) : LegalState (s.loadProgram img).1 := by
  unfold State.loadProgram
  split
  · exact h
  · next hlen => exact h.of_same (Memory.writeBlock_wf img h.1 (image_fits (Nat.not_lt.1 hlen))) rfl rfl

theorem State.tickDelay_eq (s : State) : ∃ d, s.tickDelay = s.setDt d := by
  unfold State.tickDelay
  split
  · exact ⟨_, rfl⟩
  · exact ⟨s.dt, rfl⟩

theorem State.tickSound_eq (s : State) : ∃ b, s.tickSound.1 = s.setSt b := by
  unfold State.tickSound
  split
  · exact ⟨_, rfl⟩
  · split
    · exact ⟨_, rfl⟩
    · exact ⟨s.st, rfl⟩

/-- A tick writes the two timers, as data and not only as read (R107). -/
theorem State.tick_eq (s : State) : ∃ d b, s.tick.1 = (s.setDt d).setSt b := by
  obtain ⟨d, hd⟩ := s.tickDelay_eq
  obtain ⟨b, hb⟩ := s.tickDelay.tickSound_eq
  exact ⟨d, b, by rw [State.tick, hb, hd]⟩

theorem State.tick_legal {s : State} (h : LegalState s) : LegalState s.tick.1 := by
  obtain ⟨d, b, e⟩ := s.tick_eq
  exact e ▸ h.of_same h.1 rfl rfl

theorem transact_legal {tr : Transaction} {s t : State} {r : Reply} (h : LegalState s)
    (ht : transact tr s = .next (t, r)) : LegalState t := by
  cases tr with
  | init => cases ht; exact .of_running reset_mem_wf rfl
  | loadProgram img => cases ht; exact s.loadProgram_legal h img
  | step rand =>
    obtain ⟨u, hu, rfl, -⟩ := stepWith_next ht
    have hdraw : LegalState (s.withDraw rand) := h.of_same h.1 rfl rfl
    have hlegal := step_legal hdraw hu
    exact hlegal.of_same hlegal.1 rfl rfl
  | tick => cases ht; exact s.tick_legal h
  | setKey k pressed | consumeFrame | registerSoundCallback => cases ht; exact h.of_same h.1 rfl rfl

/-! ### Runs -/

theorem run_nil (s : State) : run [] s = .next (s, []) := rfl

/-- A run that answers is its first transaction and the run of the others from there. -/
theorem run_cons_inv {tr : Transaction} {trs : List Transaction} {s u : State} {rs : List Reply}
    (h : run (tr :: trs) s = .next (u, rs)) :
    ∃ t r rs', transact tr s = .next (t, r) ∧ run trs t = .next (u, rs') ∧ rs = r :: rs' := by
  rw [run] at h
  split at h
  · next t r ht =>
    split at h
    · next u' rs' hrun => cases h; exact ⟨t, r, rs', ht, hrun, rfl⟩
    all_goals cases h
  all_goals cases h

/-- What every transaction keeps, every run keeps. -/
theorem run_keeps {P : State → Prop} (keeps : ∀ {tr s t r}, P s → transact tr s = .next (t, r) → P t)
    {trs : List Transaction} {s t : State} {rs : List Reply} (hs : P s) (h : run trs s = .next (t, rs)) : P t := by
  induction trs generalizing s rs with
  | nil => cases h; exact hs
  | cons tr trs ih =>
    obtain ⟨u, r, rs', htr, hrun, -⟩ := run_cons_inv h
    exact ih (keeps hs htr) hrun

/-- Settles O21: each of the seven transactions keeps the state legal, and so does a run of them. -/
theorem runsKeepStateLegal : Obligations.RunsKeepStateLegal := by
  unfold Obligations.RunsKeepStateLegal
  exact fun ts s t rs => run_keeps transact_legal

theorem transact_exists_next (tr : Transaction) (s : State) : ∃ t r, transact tr s = .next (t, r) := by
  cases tr with
  | step rand =>
    obtain ⟨u, e⟩ := (step_settles (s.withDraw rand)).exists_next
    exact ⟨s.keepDraw u, .stepped s.warning u.fault, by simp only [transact, State.stepWith, e]⟩
  | _ => exact ⟨_, _, rfl⟩

/-- Settles O12: no arm of a step and no transaction stops, so a run is answered by induction on its length. -/
theorem everyRunGoesOn : Obligations.EveryRunGoesOn := by
  unfold Obligations.EveryRunGoesOn
  refine ⟨fun s => (step_settles s).exists_next, fun ts => ?_⟩
  induction ts with
  | nil => exact fun s => ⟨s, [], run_nil s, rfl⟩
  | cons tr trs ih =>
    intro s
    obtain ⟨t, r, htr⟩ := transact_exists_next tr s
    obtain ⟨u, rs, hrun, hlen⟩ := ih t
    exact ⟨u, r :: rs, run_cons_next htr hrun, congrArg (· + 1) hlen⟩

end Sys2Proof.Machine
end

section
/-! SUPPORT. The engine: fetching, one step, faults, and what each instruction writes and reads (spec/40_engine.md R51-R57,
spec/60_exceptions.md R100-R103). -/

namespace Sys2Proof.Machine

/-! ### Fetching (R52) -/

/-- Settles O6: at an address with a word the fetch joins the two bytes, and `decode` decodes what they join to. -/
theorem stepRunsTheDecodedInstruction : Obligations.StepRunsTheDecodedInstruction := by
  unfold Obligations.StepRunsTheDecodedInstruction
  intro s i hrun hpc hd
  rw [decode_cons_cons] at hd
  cases hw : decodeWord (joinBytes (s.mem.read s.pc.toNat) (s.mem.read (s.pc.toNat + 1))) with
  | ok j =>
    rw [hw] at hd
    cases hd
    exact step_exec hrun (fetch_of_fits hpc) hw
  | error e =>
    rw [hw] at hd
    cases hd

theorem decodeWord_of_decodeTableWord {nbits w : Nat} {i : Instr} (h : decodeTableWord nbits w = some i) :
    decodeWord (wordOfBits nbits w) = .ok i := by
  rw [decodeTableWord, decode_cons_cons, joinBytes_splitWord] at h
  cases hd : decodeWord (wordOfBits nbits w) with
  | ok j => rw [hd] at h; cases h; rfl
  | error e => rw [hd] at h; cases h

theorem State.readyToFetch_fits (s : State) : s.readyToFetch.pc.toNat + 1 < Config.memSize := by
  unfold State.readyToFetch
  by_cases h : s.pc.toNat + 1 < Config.memSize
  · simp only [h, if_true]
  · simp only [h, if_false]
    decide

/-- A word placed at pc is the word fetched there. -/
theorem State.placeWord_fetch {s : State} (hwf : s.mem.wf = true) (hpc : s.pc.toNat + 1 < Config.memSize) (op : Word) :
    (s.placeWord op).fetch = .ok op := by
  have hread (a : Nat) := Memory.read_writeBlock s.pc.toNat [(splitWord op).1, (splitWord op).2] a hwf hpc
  have hhi : (s.placeWord op).mem.read s.pc.toNat = (splitWord op).1 := by simp [hread]
  have hlo : (s.placeWord op).mem.read (s.pc.toNat + 1) = (splitWord op).2 := by simp [hread]
  rw [fetch_of_fits (s := s.placeWord op) hpc, State.placeWord_pc, hhi, hlo, joinBytes_splitWord]

/-- Settles O7: `readyToFetch` leaves no fault and a pc with a word, where the word placed is fetched. -/
theorem placedWordIsRunNext : Obligations.PlacedWordIsRunNext := by
  unfold Obligations.PlacedWordIsRunNext
  intro s nbits w i hwf _ hd
  exact step_exec rfl (State.placeWord_fetch (s := s.readyToFetch) hwf s.readyToFetch_fits _)
    (decodeWord_of_decodeTableWord hd)

/-- Settles O8, in the three ranges of pc. -/
theorem fetchReadsTwoBytesOrFaults : Obligations.FetchReadsTwoBytesOrFaults := by
  unfold Obligations.FetchReadsTwoBytesOrFaults
  refine fun s => ⟨fun hpc => ?_, fun hrun hpc => ?_, fun hrun hpc => ?_⟩
  · exact ⟨_, fetch_of_fits hpc, joinBytes_toNat _ _⟩
  · exact ⟨_, step_fetch_fault hrun (fetch_of_last (congrArg (· + 1) hpc)), s.raise_takes _⟩
  · exact ⟨_, step_fetch_fault hrun (fetch_of_beyond hpc), s.raise_takes _⟩

/-! ### The step transaction (R51, R55, R58) -/

theorem transact_step {s t : State} {rand : Byte} (h : step (s.withDraw rand) = .next t) :
    transact (.step rand) s = .next (s.keepDraw t, .stepped s.warning t.fault) := by
  simp only [transact, State.stepWith, h]

theorem warning_halted {s : State} (h : s.fault ≠ none) : s.warning = none := by
  cases hf : s.fault with
  | none => exact absurd hf h
  | some f => simp only [State.warning, hf]

theorem warning_unknown {s : State} {op : Word} {e : DecodeError} (hrun : s.fault = none) (hf : s.fetch = .ok op)
    (hd : decodeWord op = .error e) : s.warning = some ⟨op, s.pc⟩ := by
  simp only [State.warning, hrun, hf, hd]

theorem warning_known {s : State} {op : Word} {i : Instr} (hrun : s.fault = none) (hf : s.fetch = .ok op)
    (hd : decodeWord op = .ok i) : s.warning = none := by
  simp only [State.warning, hrun, hf, hd]

theorem transact_step_halted {s : State} (h : s.fault ≠ none) (rand : Byte) :
    transact (.step rand) s = .next (s, .stepped none s.fault) := by
  rw [transact_step (step_halted (s := s.withDraw rand) h), warning_halted h]
  rfl

theorem transact_step_unknown {s : State} {op : Word} {e : DecodeError} (hrun : s.fault = none) (hf : s.fetch = .ok op)
    (hd : decodeWord op = .error e) (rand : Byte) :
    transact (.step rand) s = .next (s.skipUnknown, .stepped (some ⟨op, s.pc⟩) none) := by
  rw [transact_step (step_unknown (s := s.withDraw rand) hrun hf hd), warning_unknown hrun hf hd,
    State.skipUnknown_fault, State.withDraw_fault, hrun]
  rfl

/-- Where the word at pc is an instruction, the step transaction is its execution with the draw in place. -/
theorem transact_step_exec {s t : State} {op : Word} {i : Instr} {rand : Byte} (hrun : s.fault = none)
    (hf : s.fetch = .ok op) (hd : decodeWord op = .ok i) (he : exec i (s.withDraw rand) = .next t) :
    transact (.step rand) s = .next (s.keepDraw t, .stepped none t.fault) :=
  warning_known hrun hf hd ▸ transact_step ((step_exec (s := s.withDraw rand) hrun hf hd).trans he)

/-- Settles O9: the unknown-opcode path is an advance by 2, and its warning holds the word and pc. -/
theorem unknownOpcodeWarnsAndAdvances : Obligations.UnknownOpcodeWarnsAndAdvances := by
  unfold Obligations.UnknownOpcodeWarnsAndAdvances
  intro rand s op hrun hf hd
  exact ⟨s.skipUnknown, transact_step_unknown hrun hf hd rand, rfl, s.skipUnknown_only⟩

/-! ### Runs that stay (R100, R125) -/

/-- Where every step answers the same state, so does every run of steps. -/
theorem run_steps_of_fixed {s : State} {r : Reply} (h : ∀ rand, transact (.step rand) s = .next (s, r))
    (draws : List Byte) : run (draws.map .step) s = .next (s, draws.map fun _ => r) := by
  induction draws with
  | nil => exact run_nil s
  | cons rand draws ih => exact run_cons_next (h rand) ih

/-- A step from a running state that leaves a fault behind has changed the fault register alone (R100). -/
theorem step_fault_precise {s t : State} (hrun : s.fault = none) (hs : step s = .next t) (ht : t.fault ≠ none) :
    OnlyChanges [.fault] s t := by
  have h := hs ▸ step_settles s
  cases h with
  | completes honly =>
    have same : t.fault = s.fault := honly .fault (by decide)
    exact absurd (same.trans hrun) ht
  | raises f => exact s.raise_only f

/-- Settles O10: a step completes with the fault register as it was or raises on the state itself, and halted steps are
empty. -/
theorem faultsArePreciseAndFinal : Obligations.FaultsArePreciseAndFinal := by
  unfold Obligations.FaultsArePreciseAndFinal
  intro s t hrun hs ht
  exact ⟨step_fault_precise hrun hs ht, run_steps_of_fixed (transact_step_halted ht)⟩

theorem pc_of_fetch {s : State} {op : Word} (h : s.fetch = .ok op) : s.pc.toNat + 1 < Config.memSize := by
  rcases fetch_cases s with ⟨hpc, -⟩ | ⟨w, -, e⟩
  · exact hpc
  · cases e.symm.trans h

theorem transact_step_selfJump {s : State} (hrun : s.fault = none) (h : AtSelfJump s) (rand : Byte) :
    transact (.step rand) s = .next (s, .stepped none none) := by
  have hfits : fits12 s.pc = true := decide_eq_true (Nat.lt_of_succ_lt (pc_of_fetch h))
  have hd : decodeWord (encode (.jp s.pc)) = .ok (.jp s.pc) := decodeWord_of_encode rfl hfits
  rw [transact_step_exec hrun h hd rfl, State.jump_fault, State.withDraw_fault, hrun]
  rfl

/-- Settles O19: a halted step is empty, and a jump to its own address leaves pc as it is. -/
theorem endedRunsStay : Obligations.EndedRunsStay := by
  unfold Obligations.EndedRunsStay
  intro s hended draws
  by_cases hrun : s.fault = none
  · have hjump : AtSelfJump s := hended.resolve_left (not_not_intro hrun)
    exact ⟨_, run_steps_of_fixed (transact_step_selfJump hrun hjump) draws⟩
  · exact ⟨_, run_steps_of_fixed (transact_step_halted hrun) draws⟩

/-! ### The other ports on a halted core (R100, R102) -/

theorem State.raise_loadProgram (s : State) (f : Fault) (img : List Byte) :
    (s.raise f).loadProgram img = ((s.loadProgram img).1.raise f, (s.loadProgram img).2) := by
  unfold State.loadProgram
  split <;> rfl

theorem State.raise_tickDelay (s : State) (f : Fault) : (s.raise f).tickDelay = s.tickDelay.raise f := by
  unfold State.tickDelay
  rw [State.raise_dt]
  split <;> rfl

theorem State.raise_tickSound (s : State) (f : Fault) :
    (s.raise f).tickSound = (s.tickSound.1.raise f, s.tickSound.2) := by
  unfold State.tickSound
  rw [State.raise_st]
  split
  · rfl
  · split <;> rfl

theorem State.raise_tick (s : State) (f : Fault) : (s.raise f).tick = (s.tick.1.raise f, s.tick.2) := by
  rw [State.tick, State.raise_tickDelay, State.raise_tickSound, State.tick]

/-- Settles O11: none of these ports looks at the fault register, so raising a fault first or last is the same. -/
theorem portsWorkOnAHaltedCore : Obligations.PortsWorkOnAHaltedCore := by
  unfold Obligations.PortsWorkOnAHaltedCore
  intro tr f s hinit hstep
  cases tr with
  | init => exact absurd rfl hinit
  | step rand => exact absurd rfl (hstep rand)
  | loadProgram img => exact ⟨_, _, rfl, by simp only [transact, State.raise_loadProgram]⟩
  | tick => exact ⟨_, _, rfl, by simp only [transact, State.raise_tick]⟩
  | setKey k pressed | consumeFrame | registerSoundCallback => exact ⟨_, _, rfl, rfl⟩

/-! ### What an instruction writes to pc (R54) -/

/-- What settling answers without a fault is the completed state. -/
theorem settle_running {s t : State} {e : Except Fault State} (h : s.settle e = .next t) (ht : t.fault = none) :
    e = .ok t := by
  cases e with
  | ok u => cases h; rfl
  | error f => cases h; cases ht

theorem guarded_running {s t u : State} {a n : Nat} (h : s.guarded a n t = .next u) (hu : u.fault = none) : u = t := by
  unfold State.guarded at h
  split at h
  · cases settle_running h hu
  · cases settle_running h hu; rfl

theorem State.skipIf_pc_cases (s : State) (c : Bool) :
    (s.skipIf c).pc = trunc16 (s.pc.toNat + 2) ∨ (s.skipIf c).pc = trunc16 (s.pc.toNat + 4) := by
  cases c
  · exact .inl rfl
  · exact .inr rfl

theorem execRet_pc {s t : State} (h : execRet s = .next t) (ht : t.fault = none) :
    ∃ _ : s.sp.val ≠ 0, t.pc = s.stack[s.sp.val - 1] := by
  have hok := settle_running h ht
  by_cases hsp : s.sp.val = 0
  · rw [pop_empty hsp] at hok; cases hok
  · rw [pop_ok hsp] at hok; cases hok; exact ⟨hsp, rfl⟩

theorem execCall_pc {nnn : Word} {s t : State} (h : execCall nnn s = .next t) (ht : t.fault = none) : t.pc = nnn := by
  have hok := settle_running h ht
  split at hok
  · cases hok; rfl
  · cases hok

theorem skipOnKey_pc {x : Reg} {want : Bool} {s t : State} (h : s.skipOnKey x want = .next t) (ht : t.fault = none) :
    t.pc = trunc16 (s.pc.toNat + 2) ∨ t.pc = trunc16 (s.pc.toNat + 4) := by
  have hok := settle_running h ht
  split at hok
  · cases hok; exact s.skipIf_pc_cases _
  · cases hok

theorem execLdVxK_pc {x : Reg} {s t : State} (h : execLdVxK x s = .next t) :
    t.pc = if ∃ k : Key, s.keyDown k = true then trunc16 (s.pc.toNat + 2) else s.pc := by
  unfold execLdVxK at h
  cases hk : s.lowestKey with
  | some k =>
    rw [hk] at h
    cases h
    rw [if_pos ⟨k, (lowestKey_spec hk).1⟩]
    rfl
  | none =>
    rw [hk] at h
    cases h
    rw [if_neg]
    rintro ⟨k, hdown⟩
    rw [lowestKey_eq_none.1 hk k] at hdown
    cases hdown

/-- Settles O13, by the instruction; a guarded one that raised nothing completed. -/
theorem programCounterDiscipline : Obligations.ProgramCounterDiscipline := by
  unfold Obligations.ProgramCounterDiscipline
  intro i s t _ h ht
  cases i with
  | ret => exact execRet_pc h ht
  | call nnn => exact execCall_pc h ht
  | seByte x nn | sneByte x nn | seReg x y | sneReg x y => cases h; exact s.skipIf_pc_cases _
  | skp x | sknp x => exact skipOnKey_pc h ht
  | ldVxK x => exact execLdVxK_pc h
  | drw x y n | ldB x | storeRegs x | loadRegs x => cases guarded_running h ht; rfl
  | _ => cases h; rfl

/-! ### Which instructions write which state (R12, R15-R19, R25, R57) -/

/-- A piece of state that an instruction changed is the fault register or one of its parts. -/
theorem exec_part_written {i : Instr} {s t : State} {p : Part} (h : exec i s = .next t) (hp : p ≠ .fault)
    (hne : ¬ SamePart s t p) : p ∈ writtenParts i := by
  by_contra hc
  exact hne ((h ▸ exec_settles i s).only_of_next p (by simp [hp, hc]))

theorem writers_of_i {i : Instr} : Part.i ∈ writtenParts i → (∃ n, i = .ldI n) ∨ (∃ x, i = .addI x) ∨ ∃ x, i = .ldF x := by
  cases i <;> simp [writtenParts]

theorem writers_of_sp {i : Instr} : Part.sp ∈ writtenParts i → i = .ret ∨ ∃ n, i = .call n := by
  cases i <;> simp [writtenParts]

theorem writers_of_stack {i : Instr} : Part.stack ∈ writtenParts i → ∃ n, i = .call n := by
  cases i <;> simp [writtenParts]

theorem writers_of_dt {i : Instr} : Part.dt ∈ writtenParts i → ∃ x, i = .ldDtVx x := by
  cases i <;> simp [writtenParts]

theorem writers_of_st {i : Instr} : Part.st ∈ writtenParts i → ∃ x, i = .ldStVx x := by
  cases i <;> simp [writtenParts]

theorem writers_of_fb {i : Instr} : Part.fb ∈ writtenParts i → i = .cls ∨ ∃ x y n, i = .drw x y n := by
  cases i <;> simp [writtenParts]

theorem writers_of_redraw {i : Instr} : Part.redraw ∈ writtenParts i → i = .cls ∨ ∃ x y n, i = .drw x y n := by
  cases i <;> simp [writtenParts]

theorem writers_of_mem {i : Instr} : Part.mem ∈ writtenParts i → (∃ x, i = .ldB x) ∨ ∃ x, i = .storeRegs x := by
  cases i <;> simp [writtenParts]

theorem writers_of_draw {i : Instr} : Part.draw ∈ writtenParts i → ∃ x nn, i = .rnd x nn := by
  cases i <;> simp [writtenParts]

theorem keys_not_written (i : Instr) : Part.keys ∉ writtenParts i := by
  cases i <;> simp [writtenParts]

/-- Settles O14, by looking each piece of state up among the parts that each instruction writes. -/
theorem onlyNamedInstructionsWrite : Obligations.OnlyNamedInstructionsWrite := by
  unfold Obligations.OnlyNamedInstructionsWrite
  intro i s t h
  have written {p : Part} (hp : p ≠ .fault) (hne : ¬ SamePart s t p) : p ∈ writtenParts i := exec_part_written h hp hne
  exact ⟨by_contra fun hne => keys_not_written i (written (by decide) hne), exec_keeps_redraw h,
    fun hne => writers_of_i (written (by decide) hne), fun hne => writers_of_sp (written (by decide) hne),
    fun hne => writers_of_stack (written (by decide) hne), fun hne => writers_of_dt (written (by decide) hne),
    fun hne => writers_of_st (written (by decide) hne), fun hne => writers_of_fb (written (by decide) hne),
    fun hne => writers_of_redraw (written (by decide) hne), fun hne => writers_of_mem (written (by decide) hne),
    fun hne => writers_of_draw (written (by decide) hne)⟩

/-! ### Which registers an instruction writes (R10, R11) -/

theorem State.setResultAndFlag_onlyRegs (s : State) (x : Reg) (b : Byte) (c : Bool) :
    OnlyRegs [x, vf] s (s.setResultAndFlag x b c) := by
  intro r hr
  simp only [List.mem_cons, List.not_mem_nil, or_false, not_or] at hr
  rw [State.setResultAndFlag_getV, if_neg hr.2, if_neg hr.1]

theorem State.setResultAndFlag_advance_onlyRegs (s : State) (x : Reg) (b : Byte) (c : Bool) (n : Nat) :
    OnlyRegs [x, vf] s ((s.setResultAndFlag x b c).advance n) := s.setResultAndFlag_onlyRegs x b c

theorem State.setFlag_onlyRegs (s : State) (c : Bool) : OnlyRegs [vf] s (s.setFlag c) :=
  fun _ hr => s.setV_getV_of_ne _ (by simpa using hr)

/-- The registers that an instruction may write: its results, and VF where it writes a flag. -/
def writtenRegs (i : Instr) : List Reg := destinations i ++ if writesFlag i then [vf] else []

theorem State.setRegs_loadedRegs_onlyRegs (s : State) (x : Reg) :
    OnlyRegs (writtenRegs (.loadRegs x)) s (s.setRegs (s.loadedRegs x)) := by
  intro r hr
  have above : ¬ r ≤ x := by simpa [writtenRegs, writesFlag, destinations] using hr
  rw [State.setRegs_getV, State.loadedRegs_reg, if_neg above]

theorem onlyRegs_of_guarded {rs : List Reg} {s t u : State} {a n : Nat} (ha : a < 65536) (h : OnlyRegs rs s t)
    (hu : s.guarded a n t = .next u) : OnlyRegs rs s u := by
  rcases guarded_cases s t ha with ⟨e, -⟩ | ⟨w, -, e⟩
  · cases e.symm.trans hu; exact h
  · cases e.symm.trans hu; exact fun _ _ => rfl

theorem execLdVxK_onlyRegs {x : Reg} {s t : State} (h : execLdVxK x s = .next t) : OnlyRegs [x] s t := by
  unfold execLdVxK at h
  cases hk : s.lowestKey with
  | some k => rw [hk] at h; cases h; exact s.setV_advance_onlyRegs x _ 2
  | none => rw [hk] at h; cases h; exact fun _ _ => rfl

theorem exec_onlyRegs {i : Instr} {s t : State} (h : exec i s = .next t) : OnlyRegs (writtenRegs i) s t := by
  have unwritten (hi : Part.v ∉ writtenParts i) : OnlyRegs (writtenRegs i) s t := by
    have same : SamePart s t .v := by_contra fun hne => hi (exec_part_written h (by decide) hne)
    exact fun r _ => same r
  cases i with
  | ldByte x nn | addByte x nn | ldReg x y | orReg x y | andReg x y | xorReg x y | ldVxDt x =>
    cases h; exact s.setV_advance_onlyRegs x _ 2
  | rnd x nn => cases h; exact s.nextDraw.setV_advance_onlyRegs x _ 2
  | addReg x y | subReg x y | shr x y | subnReg x y | shl x y =>
    cases h; exact s.setResultAndFlag_advance_onlyRegs x _ _ 2
  | drw x y n =>
    exact onlyRegs_of_guarded (t := ((s.show _).setFlag _).advance 2) s.blockBase_lt ((s.show _).setFlag_onlyRegs _) h
  | loadRegs x => exact onlyRegs_of_guarded (t := (s.setRegs _).advance 2) s.blockBase_lt (s.setRegs_loadedRegs_onlyRegs x) h
  | ldVxK x => exact execLdVxK_onlyRegs h
  | _ => exact unwritten (by simp [writtenParts])

/-- Settles O15: the registers an instruction writes are its results and, where it writes a flag, VF. -/
theorem onlyResultsAndFlagsChangeRegisters : Obligations.OnlyResultsAndFlagsChangeRegisters := by
  unfold Obligations.OnlyResultsAndFlagsChangeRegisters
  intro i s t r h hne
  have hmem : r ∈ writtenRegs i := by_contra fun hc => hne (exec_onlyRegs h r hc)
  rcases List.mem_append.1 hmem with hd | hflag
  · exact .inl hd
  · cases hf : writesFlag i with
    | true => simp only [hf, if_true, List.mem_singleton] at hflag; exact .inr ⟨hflag, rfl⟩
    | false => simp [hf] at hflag

end Sys2Proof.Machine
end

section
/-! SUPPORT. What instructions read: ST, the keys and the draw are read by few of them (R9, R16, R17, R57, R109). -/

namespace Sys2Proof.Machine

/-- The state with ST, the keys and the draw replaced by what the functions make of them. -/
def State.remap (onSt : Byte → Byte) (onKeys : Vector Bool 16 → Vector Bool 16) (onRand : Byte → Byte) (s : State) : State :=
  { s with st := onSt s.st, keys := onKeys s.keys, rand := onRand s.rand }

/-- An outcome with its next state changed. -/
def mapNext (g : State → State) : Host.Outcome State Fault Refusal → Host.Outcome State Fault Refusal
  | .next t => .next (g t)
  | .fault r => .fault r
  | .refused r => .refused r

section
variable (onSt : Byte → Byte) (onKeys : Vector Bool 16 → Vector Bool 16) (onRand : Byte → Byte) (s : State)

theorem skipIf_remap (c : Bool) :
    (s.remap onSt onKeys onRand).skipIf c = (s.skipIf c).remap onSt onKeys onRand := by
  cases c <;> rfl

theorem guarded_remap (t : State) (a n : Nat) :
    (s.remap onSt onKeys onRand).guarded a n (t.remap onSt onKeys onRand) =
      mapNext (State.remap onSt onKeys onRand) (s.guarded a n t) := by
  unfold State.guarded
  cases firstBad a n <;> rfl

theorem execRet_remap :
    execRet (s.remap onSt onKeys onRand) = mapNext (State.remap onSt onKeys onRand) (execRet s) := by
  by_cases h : s.sp.val = 0
  · rw [execRet, execRet, pop_empty h, pop_empty (s := s.remap onSt onKeys onRand) h]
    rfl
  · rw [execRet, execRet, pop_ok h, pop_ok (s := s.remap onSt onKeys onRand) h]
    rfl

theorem execCall_remap (nnn : Word) :
    execCall nnn (s.remap onSt onKeys onRand) = mapNext (State.remap onSt onKeys onRand) (execCall nnn s) := by
  by_cases h : s.sp.val < 16
  · rw [execCall, execCall, push_ok h, push_ok (s := s.remap onSt onKeys onRand) h]
    rfl
  · have hfull : s.sp.val = 16 := by omega
    rw [execCall, execCall, push_full hfull, push_full (s := s.remap onSt onKeys onRand) hfull]
    rfl

theorem skipOnKey_remap (x : Reg) (want : Bool) :
    (s.remap onSt id onRand).skipOnKey x want = mapNext (State.remap onSt id onRand) (s.skipOnKey x want) := by
  have hv : (s.remap onSt id onRand).getV x = s.getV x := rfl
  rw [State.skipOnKey, State.skipOnKey, hv]
  cases keyOperand (s.getV x) with
  | ok k => exact congrArg Host.Outcome.next (skipIf_remap onSt id onRand s _)
  | error f => rfl

theorem execLdVxK_remap (x : Reg) :
    execLdVxK x (s.remap onSt id onRand) = mapNext (State.remap onSt id onRand) (execLdVxK x s) := by
  have hk : (s.remap onSt id onRand).lowestKey = s.lowestKey := rfl
  rw [execLdVxK, execLdVxK, hk]
  cases s.lowestKey <;> rfl

/-- An instruction acts alike whatever ST, the keys and the draw hold, but for what the few named ones read or write. -/
theorem exec_remap (i : Instr) (hst : ∀ x, i = .ldStVx x → onSt = id)
    (hkeys : ∀ x, i = .skp x ∨ i = .sknp x ∨ i = .ldVxK x → onKeys = id) (hrand : ∀ x nn, i = .rnd x nn → onRand = id) :
    exec i (s.remap onSt onKeys onRand) = mapNext (State.remap onSt onKeys onRand) (exec i s) := by
  cases i with
  | ret => exact execRet_remap ..
  | call nnn => exact execCall_remap ..
  | seByte x nn | sneByte x nn | seReg x y | sneReg x y => exact congrArg Host.Outcome.next (skipIf_remap ..)
  | drw x y n =>
    exact guarded_remap onSt onKeys onRand s (((s.show (s.drawSprite x y n).1).setFlag (s.drawSprite x y n).2).advance 2) ..
  | ldB x => exact guarded_remap onSt onKeys onRand s ((s.storeBlock (bcdDigits (s.getV x))).advance 2) ..
  | storeRegs x => exact guarded_remap onSt onKeys onRand s ((s.storeBlock (s.regsUpTo x)).advance 2) ..
  | loadRegs x => exact guarded_remap onSt onKeys onRand s ((s.setRegs (s.loadedRegs x)).advance 2) ..
  | skp x => cases hkeys x (.inl rfl); exact skipOnKey_remap ..
  | sknp x => cases hkeys x (.inr (.inl rfl)); exact skipOnKey_remap ..
  | ldVxK x => cases hkeys x (.inr (.inr rfl)); exact execLdVxK_remap ..
  | ldStVx x => cases hst x rfl; rfl
  | rnd x nn => cases hrand x nn rfl; rfl
  | _ => rfl

end

/-- Settles O17: an instruction that neither reads nor writes ST, or the keys, acts alike with another value in its place. -/
theorem soundTimerAndKeysAreReadByFew : Obligations.SoundTimerAndKeysAreReadByFew := by
  unfold Obligations.SoundTimerAndKeysAreReadByFew
  refine ⟨fun i s t b hi h => ?_, fun x s b => rfl, fun i s t ks hskp hsknp hwait h => ?_⟩
  · have hmap := exec_remap (fun _ => b) id id s i (fun x e => absurd e (hi x)) (fun _ _ => rfl) (fun _ _ _ => rfl)
    rw [h] at hmap
    exact hmap
  · have hmap := exec_remap id (fun _ => ks) id s i (fun _ _ => rfl)
      (fun x e => (e.elim (hskp x) fun e => e.elim (hsknp x) (hwait x)).elim) (fun _ _ _ => rfl)
    rw [h] at hmap
    exact hmap

/-- A step that is no CXNN acts alike with every draw in place. -/
theorem step_withDraw (s : State) (rand : Byte)
    (hno : ∀ op x nn, s.fetch = .ok op → decodeWord op ≠ .ok (.rnd x nn)) :
    step (s.withDraw rand) = mapNext (State.withDraw rand) (step s) := by
  rcases step_cases s with ⟨hhalt, e⟩ | ⟨hrun, w, -, hf, e⟩ | ⟨hrun, op, hf, hd, e⟩ | ⟨hrun, op, i, hf, hd, e⟩ <;> rw [e]
  · exact step_halted (s := s.withDraw rand) hhalt
  · exact step_fetch_fault (s := s.withDraw rand) hrun hf
  · exact step_unknown (s := s.withDraw rand) hrun hf hd
  · rw [step_exec (s := s.withDraw rand) hrun hf hd]
    exact exec_remap id id (fun _ => rand) s i (fun _ _ => rfl) (fun _ _ => rfl)
      fun x nn hi => absurd (hi ▸ hd) (hno op x nn hf)

/-- Settles O16: but for CXNN the outcome of a step differs in the draw alone, which its transaction does not remember. -/
theorem drawMattersOnlyToRandom : Obligations.DrawMattersOnlyToRandom := by
  unfold Obligations.DrawMattersOnlyToRandom
  intro s r1 r2 hno
  obtain ⟨t, e⟩ := (step_settles s).exists_next
  have hstep (rand : Byte) : step (s.withDraw rand) = .next (t.withDraw rand) := by
    rw [step_withDraw s rand hno, e]
    rfl
  exact (transact_step (hstep r1)).trans (transact_step (hstep r2)).symm

end Sys2Proof.Machine
end

section
/-! SUPPORT. Reset (spec/10_state.md R23, spec/70_reset_and_hazards.md R116). -/

namespace Sys2Proof.Machine

/-- Beyond the font an unwritten byte is 0 (R23). -/
theorem unlisted_beyond_font {a : Nat} (h : 0x50 ≤ a) : unlisted a = 0 := by
  have hlen : font.length ≤ a := h
  rw [unlisted, List.getD_eq_default _ _ hlen]

/-- Settles O23: every field of the reset state is written out, and its memory lists nothing, so it reads as the font. -/
theorem resetValues : Obligations.ResetValues := by
  unfold Obligations.ResetValues
  have hv (r : Reg) : State.reset.getV r = 0 := Vector.getElem_replicate ..
  have hstack (k : Fin 16) : State.reset.stack[k] = 0 := Vector.getElem_replicate ..
  have hkeys (k : Key) : State.reset.keyDown k = false := Vector.getElem_replicate ..
  exact ⟨hv, rfl, rfl, rfl, hstack, rfl, rfl, hkeys, blankFramebuffer_cell, rfl, rfl,
    fun a ha => unlisted_beyond_font ha, rfl, rfl⟩

/-- Settles O24: the port of R116 gives the reset state but for the model's own draw. -/
theorem initializeRestoresReset : Obligations.InitializeRestoresReset := by
  unfold Obligations.InitializeRestoresReset
  exact fun s => ⟨s.init, rfl, rfl, s.init_only⟩

end Sys2Proof.Machine
end

section
/-! SUPPORT. Jumps, calls and returns (spec/42_control_flow.md R64-R66, R71). -/

namespace Sys2Proof

/-- The word `FNNN` of an address that fits its field, as the statements write it (R41). -/
theorem wordNNN_eq_weighted (f : Nat) {nnn : Word} (h : nnn.toNat < 0x1000) :
    wordNNN f nnn = trunc16 (f * 0x1000 + nnn.toNat) := by
  rw [wordNNN, Nat.mod_eq_of_lt h]

theorem decodeWord_jp {nnn : Word} (h : nnn.toNat < 0x1000) : decodeWord (trunc16 (0x1000 + nnn.toNat)) = .ok (.jp nnn) :=
  decodeWord_of_encode (wordNNN_eq_weighted 0x1 h) (decide_eq_true h)

theorem decodeWord_call {nnn : Word} (h : nnn.toNat < 0x1000) :
    decodeWord (trunc16 (0x2000 + nnn.toNat)) = .ok (.call nnn) :=
  decodeWord_of_encode (wordNNN_eq_weighted 0x2 h) (decide_eq_true h)

theorem decodeWord_jpV0 {nnn : Word} (h : nnn.toNat < 0x1000) :
    decodeWord (trunc16 (0xB000 + nnn.toNat)) = .ok (.jpV0 nnn) :=
  decodeWord_of_encode (wordNNN_eq_weighted 0xB h) (decide_eq_true h)

namespace Machine

theorem exec_jp (nnn : Word) (s : State) : exec (.jp nnn) s = .next (s.jump nnn) := rfl

theorem exec_jpV0 (nnn : Word) (s : State) : exec (.jpV0 nnn) s = .next (s.jump (s.indexedTarget nnn)) := rfl

/-- The sum of a 12-bit address and a byte is exact in 16 bits (R71). -/
theorem State.indexedTarget_toNat (s : State) {nnn : Word} (h : nnn.toNat < 0x1000) :
    (s.indexedTarget nnn).toNat = nnn.toNat + (s.getV 0).toNat := by
  have := (s.getV 0).isLt
  rw [State.indexedTarget, BitVec.toNat_ofNat, Nat.mod_eq_of_lt (by omega)]

/-- Settles O27: both jumps write pc alone, and the largest indexed target is 0xFFF + 0xFF. -/
theorem jumpsSetThePc : Obligations.JumpsSetThePc := by
  unfold Obligations.JumpsSetThePc
  refine ⟨fun nnn h => ⟨decodeWord_jp h, decodeWord_jpV0 h⟩, fun nnn s => ?_, fun nnn s h => ?_⟩
  · exact ⟨_, exec_jp nnn s, s.jump_only nnn, rfl⟩
  · have hsum := s.indexedTarget_toNat h
    have := (s.getV 0).isLt
    exact ⟨_, exec_jpV0 nnn s, s.jump_only _, hsum, by rw [State.jump_pc, hsum]; omega⟩

/-- The state after a call that found room on the stack (R66). -/
def State.called (nnn : Word) (s : State) (h : s.sp.val < 16) : State :=
  ((s.setEntry ⟨s.sp.val, h⟩ (trunc16 (s.pc.toNat + 2))).setSp ⟨s.sp.val + 1, by omega⟩).jump nnn

theorem exec_call {s : State} (nnn : Word) (h : s.sp.val < 16) : exec (.call nnn) s = .next (s.called nnn h) := by
  rw [exec, execCall, push_ok h]
  rfl

theorem exec_call_full {s : State} (nnn : Word) (h : s.sp.val = 16) :
    exec (.call nnn) s = .next (s.raise .stackOverflow) := by
  rw [exec, execCall, push_full h]
  rfl

theorem State.called_only (nnn : Word) (s : State) (h : s.sp.val < 16) :
    OnlyChanges [.pc, .sp, .stack] s (s.called nnn h) :=
  (((s.setEntry_only _ _).trans (State.setSp_only _ _)).trans (State.jump_only _ _)).mono (by decide)

theorem State.called_stack (nnn : Word) (s : State) (h : s.sp.val < 16) (k : Fin 16) :
    (s.called nnn h).stack[k] = if k.val = s.sp.val then trunc16 (s.pc.toNat + 2) else s.stack[k] := by
  have hk : k = ⟨s.sp.val, h⟩ ↔ k.val = s.sp.val := Fin.ext_iff
  simp only [State.called, State.jump_stack, State.setSp_stack, State.setEntry_getElem, hk]

/-- Settles O28, with room on the stack and with none. -/
theorem callPushesReturnAddress : Obligations.CallPushesReturnAddress := by
  unfold Obligations.CallPushesReturnAddress
  refine ⟨fun nnn h => decodeWord_call h, fun nnn s h => ?_, fun nnn s h => ?_⟩
  · exact ⟨_, exec_call nnn h, s.called_only nnn h, rfl, rfl, s.called_stack nnn h⟩
  · exact ⟨_, exec_call_full nnn h, s.raise_takes _⟩

theorem exec_ret {s : State} (h : s.sp.val ≠ 0) :
    exec .ret s = .next ((s.setSp ⟨s.sp.val - 1, by omega⟩).jump s.stack[s.sp.val - 1]) := by
  rw [exec, execRet, pop_ok h]
  rfl

theorem exec_ret_empty {s : State} (h : s.sp.val = 0) : exec .ret s = .next (s.raise .stackUnderflow) := by
  rw [exec, execRet, pop_empty h]
  rfl

/-- Settles O29, with an entry on the stack and with none. -/
theorem returnPopsReturnAddress : Obligations.ReturnPopsReturnAddress := by
  unfold Obligations.ReturnPopsReturnAddress
  refine ⟨decodeWord_of_encode rfl rfl, fun s h => ?_, fun s h => ?_⟩
  · exact ⟨_, exec_ret (Nat.ne_of_gt h), ((s.setSp_only _).trans (State.jump_only _ _)).mono (by decide), rfl, rfl⟩
  · exact ⟨_, exec_ret_empty h, s.raise_takes _⟩

/-- Settles O30: the entry that RET pops is the newest one, which the call wrote. -/
theorem callThenReturnComesBack : Obligations.CallThenReturnComesBack := by
  unfold Obligations.CallThenReturnComesBack
  intro nnn s t u hroom hcall hsp hstack
  cases (exec_call nnn hroom).symm.trans hcall
  have husp : u.sp.val = s.sp.val + 1 := congrArg Fin.val hsp
  have hentry : u.stack[s.sp.val] = trunc16 (s.pc.toNat + 2) := by
    have hsame := hstack ⟨s.sp.val, hroom⟩ (Nat.lt_succ_self _)
    rw [State.called_stack, if_pos rfl] at hsame
    exact hsame
  refine ⟨_, exec_ret (s := u) (by omega), ?_, ?_⟩
  · simp only [State.jump_sp, State.setSp_sp, husp, Nat.add_sub_cancel]
  · simp only [State.jump_pc, husp, Nat.add_sub_cancel, hentry]

end Machine
end Sys2Proof
end

section
/-! SUPPORT. The arithmetic of two registers, 8XYn, and the random byte, CXNN (spec/43_alu.md R75-R84, R86). -/

namespace Sys2Proof

theorem decodeWord_ldReg (x y : Reg) : decodeWord (trunc16 (0x8000 + 0x100 * x.val + 0x10 * y.val)) = .ok (.ldReg x y) :=
  decodeWord_of_encode (wordXYN_eq_pattern_add 0x8 x y 0x0) rfl

theorem decodeWord_orReg (x y : Reg) : decodeWord (trunc16 (0x8001 + 0x100 * x.val + 0x10 * y.val)) = .ok (.orReg x y) :=
  decodeWord_of_encode (wordXYN_eq_pattern_add 0x8 x y 0x1) rfl

theorem decodeWord_andReg (x y : Reg) : decodeWord (trunc16 (0x8002 + 0x100 * x.val + 0x10 * y.val)) = .ok (.andReg x y) :=
  decodeWord_of_encode (wordXYN_eq_pattern_add 0x8 x y 0x2) rfl

theorem decodeWord_xorReg (x y : Reg) : decodeWord (trunc16 (0x8003 + 0x100 * x.val + 0x10 * y.val)) = .ok (.xorReg x y) :=
  decodeWord_of_encode (wordXYN_eq_pattern_add 0x8 x y 0x3) rfl

theorem decodeWord_addReg (x y : Reg) : decodeWord (trunc16 (0x8004 + 0x100 * x.val + 0x10 * y.val)) = .ok (.addReg x y) :=
  decodeWord_of_encode (wordXYN_eq_pattern_add 0x8 x y 0x4) rfl

theorem decodeWord_subReg (x y : Reg) : decodeWord (trunc16 (0x8005 + 0x100 * x.val + 0x10 * y.val)) = .ok (.subReg x y) :=
  decodeWord_of_encode (wordXYN_eq_pattern_add 0x8 x y 0x5) rfl

theorem decodeWord_shr (x y : Reg) : decodeWord (trunc16 (0x8006 + 0x100 * x.val + 0x10 * y.val)) = .ok (.shr x y) :=
  decodeWord_of_encode (wordXYN_eq_pattern_add 0x8 x y 0x6) rfl

theorem decodeWord_subnReg (x y : Reg) :
    decodeWord (trunc16 (0x8007 + 0x100 * x.val + 0x10 * y.val)) = .ok (.subnReg x y) :=
  decodeWord_of_encode (wordXYN_eq_pattern_add 0x8 x y 0x7) rfl

theorem decodeWord_shl (x y : Reg) : decodeWord (trunc16 (0x800E + 0x100 * x.val + 0x10 * y.val)) = .ok (.shl x y) :=
  decodeWord_of_encode (wordXYN_eq_pattern_add 0x8 x y 0xE) rfl

theorem decodeWord_rnd (x : Reg) (nn : Byte) :
    decodeWord (trunc16 (0xC000 + 0x100 * x.val + nn.toNat)) = .ok (.rnd x nn) :=
  decodeWord_of_encode (wordXNN_eq_weighted 0xC x nn.toNat) rfl

namespace Machine

/-! ### Copy and bitwise operations: no flag -/

theorem exec_ldReg (x y : Reg) (s : State) : exec (.ldReg x y) s = .next ((s.setV x (s.getV y)).advance 2) := rfl

theorem exec_orReg (x y : Reg) (s : State) :
    exec (.orReg x y) s = .next ((s.setV x (s.getV x ||| s.getV y)).advance 2) := rfl

theorem exec_andReg (x y : Reg) (s : State) :
    exec (.andReg x y) s = .next ((s.setV x (s.getV x &&& s.getV y)).advance 2) := rfl

theorem exec_xorReg (x y : Reg) (s : State) :
    exec (.xorReg x y) s = .next ((s.setV x (s.getV x ^^^ s.getV y)).advance 2) := rfl

/-- Settles O32: each instruction writes V[X] and goes on, and its result is read bit by bit. -/
theorem copyAndBitwise : Obligations.CopyAndBitwise := by
  unfold Obligations.CopyAndBitwise
  refine ⟨fun x y => ⟨decodeWord_ldReg x y, decodeWord_orReg x y, decodeWord_andReg x y, decodeWord_xorReg x y⟩,
    fun x y s => ⟨?_, ?_, ?_, ?_⟩⟩
  · exact ⟨_, exec_ldReg x y s, s.setV_advance_only x _ 2, s.setV_advance_onlyRegs x _ 2, rfl,
      s.setV_advance_getV_self x _ 2⟩
  · refine ⟨_, exec_orReg x y s, s.setV_advance_only x _ 2, s.setV_advance_onlyRegs x _ 2, rfl, fun b => ?_⟩
    rw [State.setV_advance_getV_self, BitVec.getLsbD_or]
  · refine ⟨_, exec_andReg x y s, s.setV_advance_only x _ 2, s.setV_advance_onlyRegs x _ 2, rfl, fun b => ?_⟩
    rw [State.setV_advance_getV_self, BitVec.getLsbD_and]
  · refine ⟨_, exec_xorReg x y s, s.setV_advance_only x _ 2, s.setV_advance_onlyRegs x _ 2, rfl, fun b => ?_⟩
    rw [State.setV_advance_getV_self, BitVec.getLsbD_xor, Bool.xor]

/-! ### A result and then a flag (R86) -/

theorem exec_addReg (x y : Reg) (s : State) :
    exec (.addReg x y) s = .next ((s.setResultAndFlag x (trunc8 ((s.getV x).toNat + (s.getV y).toNat))
      (carryFlag (s.getV x) (s.getV y))).advance 2) := rfl

theorem exec_subReg (x y : Reg) (s : State) :
    exec (.subReg x y) s = .next ((s.setResultAndFlag x (trunc8 ((s.getV x).toNat + 256 - (s.getV y).toNat))
      (noBorrowFlag (s.getV x) (s.getV y))).advance 2) := rfl

theorem exec_subnReg (x y : Reg) (s : State) :
    exec (.subnReg x y) s = .next ((s.setResultAndFlag x (trunc8 ((s.getV y).toNat + 256 - (s.getV x).toNat))
      (noBorrowFlag (s.getV y) (s.getV x))).advance 2) := rfl

theorem exec_shr (x y : Reg) (s : State) :
    exec (.shr x y) s = .next ((s.setResultAndFlag x (trunc8 ((s.getV x).toNat >>> 1))
      (shiftedOutLow (s.getV x))).advance 2) := rfl

theorem exec_shl (x y : Reg) (s : State) :
    exec (.shl x y) s = .next ((s.setResultAndFlag x (trunc8 ((s.getV x).toNat <<< 1))
      (shiftedOutHigh (s.getV x))).advance 2) := rfl

theorem State.setResultAndFlag_advance_only (s : State) (x : Reg) (b : Byte) (c : Bool) (n : Nat) :
    OnlyChanges [.v, .pc] s ((s.setResultAndFlag x b c).advance n) :=
  (s.setResultAndFlag_only x b c).trans (State.advance_only _ n)

/-- VF holds the flag, also when it is the result register too. -/
theorem State.setResultAndFlag_advance_getV_vf (s : State) (x : Reg) (b : Byte) (c : Bool) (n : Nat) :
    ((s.setResultAndFlag x b c).advance n).getV vf = flagByte c := by
  rw [State.advance_getV, State.setResultAndFlag_getV, if_pos rfl]

theorem State.setResultAndFlag_advance_getV_result (s : State) {x : Reg} (b : Byte) (c : Bool) (n : Nat) (hx : x ≠ vf) :
    ((s.setResultAndFlag x b c).advance n).getV x = b := by
  rw [State.advance_getV, State.setResultAndFlag_getV, if_neg hx, if_pos rfl]

theorem flagByte_toNat (c : Bool) : (flagByte c).toNat = if c = true then 1 else 0 := by
  cases c <;> rfl

theorem flagByte_carryFlag_toNat (a b : Byte) :
    (flagByte (carryFlag a b)).toNat = if a.toNat + b.toNat > 255 then 1 else 0 := by
  simp only [flagByte_toNat, carryFlag, decide_eq_true_eq]

theorem flagByte_noBorrowFlag_toNat (a b : Byte) :
    (flagByte (noBorrowFlag a b)).toNat = if b.toNat ≤ a.toNat then 1 else 0 := by
  simp only [flagByte_toNat, noBorrowFlag, decide_eq_true_eq, ge_iff_le]

/-- Adding 256 before the subtraction keeps it in the naturals and is lost modulo 256 (R80, R82). -/
theorem trunc8_sub_toNat (a b : Byte) :
    ((trunc8 (a.toNat + 256 - b.toNat)).toNat : Int) = (a.toNat - b.toNat : Int) % 256 := by
  have := a.isLt
  have := b.isLt
  rw [BitVec.toNat_ofNat]
  omega

theorem flagByte_shiftedOutLow_toNat (a : Byte) : (flagByte (shiftedOutLow a)).toNat = a.toNat % 2 := by
  simp only [flagByte_toNat, shiftedOutLow, BitVec.getLsbD, Nat.testBit_zero, decide_eq_true_eq]
  split <;> omega

theorem flagByte_shiftedOutHigh_toNat (a : Byte) : (flagByte (shiftedOutHigh a)).toNat = a.toNat / 128 := by
  have := a.isLt
  simp only [flagByte_toNat, shiftedOutHigh, BitVec.getLsbD, Nat.testBit_eq_decide_div_mod_eq, decide_eq_true_eq]
  split <;> omega

theorem trunc8_shiftRight_toNat (a : Byte) : (trunc8 (a.toNat >>> 1)).toNat = a.toNat / 2 := by
  have := a.isLt
  rw [BitVec.toNat_ofNat, Nat.shiftRight_one]
  omega

theorem trunc8_shiftLeft_toNat (a : Byte) : (trunc8 (a.toNat <<< 1)).toNat = a.toNat * 2 % 256 := by
  rw [BitVec.toNat_ofNat, Nat.shiftLeft_eq, pow_one]

/-- Settles O33: the carry says whether the sum left a byte, and VF is written last. -/
theorem addSetsCarry : Obligations.AddSetsCarry := by
  unfold Obligations.AddSetsCarry
  refine ⟨decodeWord_addReg, fun x y s => ⟨_, exec_addReg x y s, s.setResultAndFlag_advance_only x _ _ 2,
    s.setResultAndFlag_advance_onlyRegs x _ _ 2, rfl, ?_, fun hx => ?_⟩⟩
  · rw [State.setResultAndFlag_advance_getV_vf, flagByte_carryFlag_toNat]
  · rw [State.setResultAndFlag_advance_getV_result _ _ _ _ hx, BitVec.toNat_ofNat]

/-- Settles O34: SUBN is SUB with the operands exchanged. -/
theorem subtractSetsNotBorrow : Obligations.SubtractSetsNotBorrow := by
  unfold Obligations.SubtractSetsNotBorrow
  refine ⟨fun x y => ⟨decodeWord_subReg x y, decodeWord_subnReg x y⟩, fun x y s => ⟨?_, ?_⟩⟩
  · refine ⟨_, exec_subReg x y s, s.setResultAndFlag_advance_only x _ _ 2, s.setResultAndFlag_advance_onlyRegs x _ _ 2, rfl,
      ?_, fun hx => ?_⟩
    · rw [State.setResultAndFlag_advance_getV_vf, flagByte_noBorrowFlag_toNat]
    · rw [State.setResultAndFlag_advance_getV_result _ _ _ _ hx, trunc8_sub_toNat]
  · refine ⟨_, exec_subnReg x y s, s.setResultAndFlag_advance_only x _ _ 2, s.setResultAndFlag_advance_onlyRegs x _ _ 2, rfl,
      ?_, fun hx => ?_⟩
    · rw [State.setResultAndFlag_advance_getV_vf, flagByte_noBorrowFlag_toNat]
    · rw [State.setResultAndFlag_advance_getV_result _ _ _ _ hx, trunc8_sub_toNat]

/-- Settles O35: a shift by one is a halving or a doubling, and bit 0 or bit 7 is what it drops. -/
theorem shiftsMoveOneBit : Obligations.ShiftsMoveOneBit := by
  unfold Obligations.ShiftsMoveOneBit
  refine ⟨fun x y => ⟨decodeWord_shr x y, decodeWord_shl x y⟩, fun x y s => ⟨?_, ?_⟩⟩
  · refine ⟨_, exec_shr x y s, s.setResultAndFlag_advance_only x _ _ 2, s.setResultAndFlag_advance_onlyRegs x _ _ 2, rfl, ?_,
      fun hx => ?_⟩
    · rw [State.setResultAndFlag_advance_getV_vf, flagByte_shiftedOutLow_toNat]
    · rw [State.setResultAndFlag_advance_getV_result _ _ _ _ hx, trunc8_shiftRight_toNat]
  · refine ⟨_, exec_shl x y s, s.setResultAndFlag_advance_only x _ _ 2, s.setResultAndFlag_advance_onlyRegs x _ _ 2, rfl, ?_,
      fun hx => ?_⟩
    · rw [State.setResultAndFlag_advance_getV_vf, flagByte_shiftedOutHigh_toNat]
    · rw [State.setResultAndFlag_advance_getV_result _ _ _ _ hx, trunc8_shiftLeft_toNat]

/-! ### The random byte (R84) -/

theorem exec_rnd (x : Reg) (nn : Byte) (s : State) :
    exec (.rnd x nn) s = .next ((s.nextDraw.setV x (s.rand &&& nn)).advance 2) := rfl

theorem State.rnd_only (s : State) (x : Reg) (b : Byte) :
    OnlyChanges [.v, .pc, .draw] s ((s.nextDraw.setV x b).advance 2) :=
  s.nextDraw_only.comp (State.setV_advance_only _ x b 2) (by decide)

/-- Settles O36; as a transaction the draw given is in place when CXNN reads it, and the model's draw is as before. -/
theorem randomIsDrawAndMask : Obligations.RandomIsDrawAndMask := by
  unfold Obligations.RandomIsDrawAndMask
  refine ⟨decodeWord_rnd, fun x nn s => ?_, fun x nn rand s op hrun hf hd => ?_⟩
  · refine ⟨_, exec_rnd x nn s, s.rnd_only x _, s.nextDraw.setV_advance_onlyRegs x _ 2, rfl, fun b => ?_⟩
    rw [State.setV_advance_getV_self, BitVec.getLsbD_and]
  · refine ⟨s.keepDraw (((s.withDraw rand).nextDraw.setV x (rand &&& nn)).advance 2), ?_, ?_,
      State.setV_advance_onlyRegs s.nextDraw x _ 2, State.setV_advance_getV_self _ x _ 2⟩
    · rw [transact_step_exec hrun hf hd (exec_rnd x nn (s.withDraw rand))]
      exact congrArg (fun f => Host.Outcome.next (_, Reply.stepped none f)) hrun
    · exact State.keepDraw_only ((s.withDraw_only rand).comp (State.rnd_only _ x _) (by decide))

end Machine
end Sys2Proof
end

section
/-! SUPPORT. The addition to I and the memory transfers (spec/44_index_memory.md R88, R90-R92), the load port (R33, R34), and
what a fetch reads after a store (R36). -/

namespace Sys2Proof

theorem decodeWord_addI (x : Reg) : decodeWord (trunc16 (0xF01E + 0x100 * x.val)) = .ok (.addI x) :=
  decodeWord_of_encode (wordXNN_eq_pattern_add 0xF x 0x1E) rfl

theorem decodeWord_ldB (x : Reg) : decodeWord (trunc16 (0xF033 + 0x100 * x.val)) = .ok (.ldB x) :=
  decodeWord_of_encode (wordXNN_eq_pattern_add 0xF x 0x33) rfl

theorem decodeWord_storeRegs (x : Reg) : decodeWord (trunc16 (0xF055 + 0x100 * x.val)) = .ok (.storeRegs x) :=
  decodeWord_of_encode (wordXNN_eq_pattern_add 0xF x 0x55) rfl

theorem decodeWord_loadRegs (x : Reg) : decodeWord (trunc16 (0xF065 + 0x100 * x.val)) = .ok (.loadRegs x) :=
  decodeWord_of_encode (wordXNN_eq_pattern_add 0xF x 0x65) rfl

namespace Machine

theorem exec_addI (x : Reg) (s : State) :
    exec (.addI x) s = .next ((s.setI (trunc16 (s.i.toNat + (s.getV x).toNat))).advance 2) := rfl

/-- Settles O38: the sum of a word and a byte modulo 65536, with I and pc alone written. -/
theorem indexAddition : Obligations.IndexAddition := by
  unfold Obligations.IndexAddition
  refine ⟨decodeWord_addI, fun x s => ⟨_, exec_addI x s, s.setI_advance_only _ 2, rfl, ?_⟩⟩
  rw [State.advance_i, State.setI_i, BitVec.toNat_ofNat]

/-! ### Block accesses, inside memory and beyond it (R27, R56) -/

theorem exec_ldB {s : State} (x : Reg) (h : s.i.toNat + 3 ≤ Config.memSize) :
    exec (.ldB x) s = .next ((s.storeBlock (bcdDigits (s.getV x))).advance 2) :=
  guarded_of_fits (.inr h)

theorem exec_storeRegs {s : State} {x : Reg} (h : s.i.toNat + x.val + 1 ≤ Config.memSize) :
    exec (.storeRegs x) s = .next ((s.storeBlock (s.regsUpTo x)).advance 2) :=
  guarded_of_fits (.inr h)

theorem exec_loadRegs {s : State} {x : Reg} (h : s.i.toNat + x.val + 1 ≤ Config.memSize) :
    exec (.loadRegs x) s = .next ((s.setRegs (s.loadedRegs x)).advance 2) :=
  guarded_of_fits (.inr h)

/-- A guarded access that leaves memory takes the fault of its first missing address. -/
theorem guarded_takes_fault {s t : State} {n : Nat} (h0 : 0 < n) (h : Config.memSize < s.i.toNat + n) :
    ∃ u, s.guarded s.blockBase n t = .next u ∧ TakesFault (.memoryFault (trunc16 (max s.i.toNat 0x1000))) s u :=
  ⟨_, guarded_of_bad h0 h, s.raise_takes _⟩

/-- Settles O43: the four block instructions check their addresses by one guard. -/
theorem blockAccessesFault : Obligations.BlockAccessesFault := by
  unfold Obligations.BlockAccessesFault
  exact fun s => ⟨fun x y n h0 h => guarded_takes_fault h0 h, fun x h => guarded_takes_fault (by decide) h,
    fun x h => ⟨guarded_takes_fault x.val.succ_pos h, guarded_takes_fault x.val.succ_pos h⟩⟩

/-! ### Stores -/

theorem State.storeBlock_advance_only (s : State) (bs : List Byte) (n : Nat) :
    OnlyChanges [.mem, .pc] s ((s.storeBlock bs).advance n) :=
  (s.storeBlock_only bs).trans (State.advance_only _ n)

theorem State.storeBlock_advance_onlyBytes (s : State) {bs : List Byte} {len : Nat} (hlen : bs.length = len) (n : Nat) :
    OnlyBytes s.i.toNat len s ((s.storeBlock bs).advance n) :=
  fun _ hb => Memory.read_writeBlock_outside bs (hlen ▸ hb)

/-- Byte k of a block lies at its start plus k (R28). -/
theorem Memory.read_writeBlock_at {m : Memory} {a k : Nat} {bs : List Byte} (hwf : m.wf = true)
    (hfits : a + bs.length ≤ Config.memSize) (hk : k < bs.length) : (m.writeBlock a bs).read (a + k) = bs[k] := by
  rw [Memory.read_writeBlock a bs (a + k) hwf hfits, if_pos (by omega), Nat.add_sub_cancel_left, List.getD_eq_getElem]

theorem bcdDigits_length (b : Byte) : (bcdDigits b).length = 3 := rfl

/-- The three digits stand for the byte (R90). -/
theorem bcdDigits_value (b : Byte) :
    (trunc8 (b.toNat / 100)).toNat * 100 + (trunc8 (b.toNat / 10 % 10)).toNat * 10 + (trunc8 (b.toNat % 10)).toNat =
      b.toNat := by
  have := b.isLt
  simp only [BitVec.toNat_ofNat]
  omega

theorem trunc8_digit_lt {n : Nat} (h : n < 10) : (trunc8 n).toNat < 10 := by
  rw [BitVec.toNat_ofNat]
  omega

/-- Settles O39: the three digits are stored where they belong, and together they are V[X]. -/
theorem bcdIsStored : Obligations.BcdIsStored := by
  unfold Obligations.BcdIsStored
  refine ⟨decodeWord_ldB, fun x s hwf hfits => ?_⟩
  have hb := (s.getV x).isLt
  have h0 : (s.storeBlock (bcdDigits (s.getV x))).mem.read s.i.toNat = trunc8 ((s.getV x).toNat / 100) :=
    Memory.read_writeBlock_at (bs := bcdDigits (s.getV x)) (k := 0) hwf hfits (by decide : 0 < 3)
  have h1 : (s.storeBlock (bcdDigits (s.getV x))).mem.read (s.i.toNat + 1) = trunc8 ((s.getV x).toNat / 10 % 10) :=
    Memory.read_writeBlock_at (bs := bcdDigits (s.getV x)) (k := 1) hwf hfits (by decide : 1 < 3)
  have h2 : (s.storeBlock (bcdDigits (s.getV x))).mem.read (s.i.toNat + 2) = trunc8 ((s.getV x).toNat % 10) :=
    Memory.read_writeBlock_at (bs := bcdDigits (s.getV x)) (k := 2) hwf hfits (by decide : 2 < 3)
  refine ⟨_, exec_ldB x hfits, s.storeBlock_advance_only _ 2, s.storeBlock_advance_onlyBytes (bcdDigits_length _) 2, rfl,
    ?_⟩
  rw [State.advance_mem, h0, h1, h2]
  exact ⟨bcdDigits_value _, trunc8_digit_lt (by omega), trunc8_digit_lt (by omega), trunc8_digit_lt (by omega)⟩

theorem State.regsUpTo_getElem (s : State) {x k : Reg} (hk : k.val < (s.regsUpTo x).length) :
    (s.regsUpTo x)[k.val] = s.getV k := by
  simp [State.regsUpTo, State.getV]

theorem State.regsUpTo_fits {s : State} {x : Reg} (h : s.i.toNat + x.val + 1 ≤ Config.memSize) :
    s.i.toNat + (s.regsUpTo x).length ≤ Config.memSize := by
  rw [s.regsUpTo_length]
  exact h

theorem State.read_storeBlock_regsUpTo {s : State} {x k : Reg} (hwf : s.mem.wf = true)
    (hfits : s.i.toNat + x.val + 1 ≤ Config.memSize) (hk : k ≤ x) :
    (s.storeBlock (s.regsUpTo x)).mem.read (s.i.toNat + k.val) = s.getV k := by
  have hklen : k.val < (s.regsUpTo x).length := by rw [s.regsUpTo_length]; exact Nat.lt_succ_of_le hk
  exact (Memory.read_writeBlock_at hwf (State.regsUpTo_fits hfits) hklen).trans (s.regsUpTo_getElem hklen)

/-- Settles O40: byte k of the block stored is V[k]. -/
theorem registersAreStored : Obligations.RegistersAreStored := by
  unfold Obligations.RegistersAreStored
  exact ⟨decodeWord_storeRegs, fun x s hwf hfits => ⟨_, exec_storeRegs hfits, s.storeBlock_advance_only _ 2,
    s.storeBlock_advance_onlyBytes (s.regsUpTo_length x) 2, rfl, fun k hk => State.read_storeBlock_regsUpTo hwf hfits hk⟩⟩

/-- Settles O41: register k of the block loaded is byte k of memory from I on. -/
theorem registersAreLoaded : Obligations.RegistersAreLoaded := by
  unfold Obligations.RegistersAreLoaded
  exact ⟨decodeWord_loadRegs, fun x s hfits => ⟨_, exec_loadRegs hfits, (s.setRegs_only _).trans (State.advance_only _ 2),
    rfl, fun k => s.loadedRegs_reg x k⟩⟩

/-- Settles O42: FX65 reads at the same I the bytes that FX55 left there. -/
theorem storeThenLoadRestores : Obligations.StoreThenLoadRestores := by
  unfold Obligations.StoreThenLoadRestores
  intro x s t u hwf hfits hstore hi hblock
  cases (exec_storeRegs hfits).symm.trans hstore
  have hui : u.i = s.i := hi
  refine ⟨_, exec_loadRegs (s := u) (by rw [hui]; exact hfits), fun k hk => ?_⟩
  rw [State.advance_getV, State.setRegs_getV, State.loadedRegs_reg, if_pos hk, State.blockBase, hui, hblock k hk]
  exact State.read_storeBlock_regsUpTo hwf hfits hk

/-! ### The load port (R33, R34) -/

theorem transact_load_refused {img : List Byte} (s : State) (h : img.length > Config.maxProgram) :
    transact (.loadProgram img) s = .next (s, .loaded .programTooLarge) := by
  simp only [transact, State.loadProgram, if_pos h]

theorem transact_load {img : List Byte} (s : State) (h : img.length ≤ Config.maxProgram) :
    transact (.loadProgram img) s = .next (s.writeProgram img, .loaded .ok) := by
  simp only [transact, State.loadProgram, if_neg (Nat.not_lt.2 h)]

/-- Settles O55: a load that is not refused is one block of writes. -/
theorem loadWritesAllOrNothing : Obligations.LoadWritesAllOrNothing := by
  unfold Obligations.LoadWritesAllOrNothing
  exact fun img s => ⟨transact_load_refused s, fun hlen hwf => ⟨_, transact_load s hlen, s.writeProgram_only img,
    fun _ hb => Memory.read_writeBlock_outside img hb, fun _ hk => Memory.read_writeBlock_at hwf (image_fits hlen) hk⟩⟩

/-! ### Fetches over stored bytes (R36, R121) -/

/-- After a block of writes every fetch reads the bytes of the block where they lie over it. -/
theorem fetchesOverlaid_of_writeBlock {s t : State} {a : Nat} {bs : List Byte} (hwf : s.mem.wf = true)
    (hfits : a + bs.length ≤ Config.memSize) (hmem : t.mem = s.mem.writeBlock a bs) : FetchesOverlaid s t a bs := by
  have hread (b : Nat) : t.mem.read b = overlaid s a bs b := by rw [hmem, Memory.read_writeBlock a bs b hwf hfits, overlaid]
  intro p hp
  refine ⟨_, fetch_of_fits (s := t.jump p) hp, ?_⟩
  rw [joinBytes_toNat, State.jump_pc, State.jump_mem, hread, hread]

/-- The registers that FX55 stores, by their numbers. -/
theorem State.regsUpTo_eq_map (s : State) (x : Reg) : s.regsUpTo x = ((List.finRange 16).take (x.val + 1)).map s.getV := by
  have hall : s.v.toList = (List.finRange 16).map s.getV :=
    List.ext_getElem (by simp) fun k _ _ => by simp [State.getV]
  rw [State.regsUpTo, hall, List.map_take]

/-- Settles O18: all three are one block of writes to memory, and a fetch reads two bytes of it. -/
theorem storedBytesAreFetched : Obligations.StoredBytesAreFetched := by
  unfold Obligations.StoredBytesAreFetched
  refine fun s hwf => ⟨fun x hfits => ?_, fun x hfits => ?_, fun img hlen => ?_⟩
  · refine ⟨_, exec_storeRegs hfits, rfl, ?_⟩
    rw [← s.regsUpTo_eq_map x]
    exact fetchesOverlaid_of_writeBlock hwf (State.regsUpTo_fits hfits) rfl
  · exact ⟨_, exec_ldB x hfits, rfl, fetchesOverlaid_of_writeBlock hwf hfits rfl⟩
  · exact ⟨_, transact_load s hlen, rfl, fetchesOverlaid_of_writeBlock hwf (image_fits hlen) rfl⟩

end Machine
end Sys2Proof
end

section
/-! SUPPORT. 00E0 and DXYN (spec/41_display.md R59-R62). -/

namespace Sys2Proof

theorem decodeWord_drw (x y : Reg) (n : Fin 16) :
    decodeWord (trunc16 (0xD000 + 0x100 * x.val + 0x10 * y.val + n.val)) = .ok (.drw x y n) :=
  decodeWord_of_encode (wordXYN_eq_weighted 0xD x y n.val) rfl

namespace Machine

theorem exec_cls (s : State) : exec .cls s = .next ((s.show blankFramebuffer).advance 2) := rfl

/-- Settles O44: the screen shown is the blank one, and `show` sets `redraw` on its own. -/
theorem clearScreenClears : Obligations.ClearScreenClears := by
  unfold Obligations.ClearScreenClears
  exact ⟨decodeWord_of_encode rfl rfl, fun s => ⟨_, exec_cls s, (s.show_only _).trans (State.advance_only _ 2), rfl, rfl,
    blankFramebuffer_cell⟩⟩

/-! ### The cells a sprite covers -/

theorem spriteBit_eq (row : Byte) (c : Fin 8) : spriteBit row c = row.getLsbD (7 - c.val) := by
  rw [spriteBit, BitVec.getLsbD_ushiftRight, Nat.add_zero]

theorem bitsHit_finRange_iff (x0 : Nat) (row : Byte) (x : Fin 64) :
    bitsHit x0 row (List.finRange 8) x ↔ ∃ c < 8, row.getLsbD (7 - c) = true ∧ x.val = (x0 + c) % 64 := by
  constructor
  · rintro ⟨c, -, hbit, rfl⟩
    exact ⟨c.val, c.isLt, spriteBit_eq row c ▸ hbit, rfl⟩
  · rintro ⟨c, hc, hbit, hx⟩
    exact ⟨⟨c, hc⟩, List.mem_finRange _, (spriteBit_eq row ⟨c, hc⟩).trans hbit, Fin.ext hx⟩

/-- The cells that the bytes at I land on are those that the sprite covers (R61). -/
theorem rowsHit_spriteRows_iff (s : State) (x y : Reg) (n : Fin 16) (row : Fin 32) (column : Fin 64) :
    rowsHit (s.getV x).toNat (s.getV y).toNat 0 (s.spriteRows n) row column ↔ spriteCovers s x y n row column := by
  have hbyte (r : Nat) (hr : r < (s.spriteRows n).length) : (s.spriteRows n)[r] = s.mem.read (s.i.toNat + r) :=
    Memory.readBlock_getElem ..
  have hlen : (s.spriteRows n).length = n.val := Memory.readBlock_length ..
  constructor
  · rintro ⟨r, hr, rfl, hbits⟩
    rw [hbyte, bitsHit_finRange_iff] at hbits
    obtain ⟨c, hc, hbit, hcolumn⟩ := hbits
    exact ⟨r, c, hlen ▸ hr, hc, hbit, congrArg (fun k => ((s.getV y).toNat + k) % 32) (Nat.zero_add r), hcolumn⟩
  · rintro ⟨r, c, hr, hc, hbit, hrow, hcolumn⟩
    refine ⟨r, hlen.symm ▸ hr, Fin.ext (hrow.trans ?_), ?_⟩
    · rw [wrapRow, Nat.zero_add]
    · rw [hbyte, bitsHit_finRange_iff]
      exact ⟨c, hc, hbit, hcolumn⟩

/-- What drawing the sprite makes of the screen, cell by cell, and its collision (R60-R62). -/
theorem State.drawSprite_spec (s : State) (x y : Reg) (n : Fin 16) :
    (∀ row column, (s.drawSprite x y n).1.cell row column ≠ s.fb.cell row column ↔ spriteCovers s x y n row column) ∧
    ((s.drawSprite x y n).2 = true ↔ ∃ row column, s.fb.cell row column = true ∧ spriteCovers s x y n row column) := by
  have hrows : 0 + (s.spriteRows n).length ≤ 32 := by
    have := n.isLt
    rw [State.spriteRows, Memory.readBlock_length]
    omega
  obtain ⟨hcell, hcollision⟩ := drawRows_spec (s.getV x).toNat (s.getV y).toNat 0 (s.spriteRows n) hrows (s.fb, false)
  simp only [rowsHit_spriteRows_iff, Bool.false_eq_true, false_or] at hcell hcollision
  exact ⟨hcell, hcollision⟩

/-! ### DXYN -/

/-- The state after a DXYN whose bytes exist (R60). -/
def State.drawn (x y : Reg) (n : Fin 16) (s : State) : State :=
  ((s.show (s.drawSprite x y n).1).setFlag (s.drawSprite x y n).2).advance 2

theorem exec_drw {s : State} (x y : Reg) {n : Fin 16} (h : n.val = 0 ∨ s.i.toNat + n.val ≤ Config.memSize) :
    exec (.drw x y n) s = .next (s.drawn x y n) :=
  guarded_of_fits h

theorem State.drawn_only (s : State) (x y : Reg) (n : Fin 16) : OnlyChanges [.v, .fb, .redraw, .pc] s (s.drawn x y n) :=
  (((s.show_only _).trans (State.setFlag_only _ _)).trans (State.advance_only _ 2)).mono (by decide)

theorem State.drawn_onlyRegs (s : State) (x y : Reg) (n : Fin 16) : OnlyRegs [vf] s (s.drawn x y n) :=
  (s.show _).setFlag_onlyRegs _

theorem State.drawn_getV_vf (s : State) (x y : Reg) (n : Fin 16) :
    (s.drawn x y n).getV vf = flagByte (s.drawSprite x y n).2 := by
  rw [State.drawn, State.advance_getV, State.setFlag_getV, if_pos rfl]

theorem State.drawn_toggles_iff (s : State) (x y : Reg) (n : Fin 16) (row : Fin 32) (column : Fin 64) :
    (s.drawn x y n).fb.cell row column ≠ s.fb.cell row column ↔ spriteCovers s x y n row column :=
  (s.drawSprite_spec x y n).1 row column

theorem flagByte_eq_one_iff (c : Bool) : flagByte c = 1 ↔ c = true := by
  cases c <;> decide

theorem State.drawn_collides_iff (s : State) (x y : Reg) (n : Fin 16) :
    (s.drawn x y n).getV vf = 1 ↔ ∃ row column, s.fb.cell row column = true ∧ spriteCovers s x y n row column := by
  rw [State.drawn_getV_vf, flagByte_eq_one_iff]
  exact (s.drawSprite_spec x y n).2

theorem flagByte_cases (c : Bool) : flagByte c = 0 ∨ flagByte c = 1 := by
  cases c
  · exact .inl rfl
  · exact .inr rfl

/-- Settles O45, from what drawing makes of each cell. -/
theorem spriteDrawingTogglesCoveredCells : Obligations.SpriteDrawingTogglesCoveredCells := by
  unfold Obligations.SpriteDrawingTogglesCoveredCells
  refine ⟨decodeWord_drw, fun x y n s hfits => ⟨_, exec_drw x y hfits, s.drawn_only x y n, s.drawn_onlyRegs x y n, rfl, rfl,
    s.drawn_toggles_iff x y n, ?_, s.drawn_collides_iff x y n⟩⟩
  rw [State.drawn_getV_vf]
  exact flagByte_cases _

/-! ### The collision, and drawing twice (R62) -/

/-- A cell is covered exactly when drawing turns it to its other value. -/
theorem State.spriteCovers_iff_drawn (s : State) (x y : Reg) (n : Fin 16) (row : Fin 32) (column : Fin 64) :
    spriteCovers s x y n row column ↔ (s.drawn x y n).fb.cell row column = !s.fb.cell row column := by
  rw [← s.drawn_toggles_iff x y n, Bool.eq_not]

theorem State.drawn_collides_iff_set_to_unset (s : State) (x y : Reg) (n : Fin 16) :
    (s.drawn x y n).getV vf = 1 ↔
      ∃ row column, s.fb.cell row column = true ∧ (s.drawn x y n).fb.cell row column = false := by
  rw [s.drawn_collides_iff]
  refine exists_congr fun row => exists_congr fun column => and_congr_right fun hset => ?_
  rw [s.spriteCovers_iff_drawn, hset, Bool.not_true]

/-- A DXYN that leaves its origin alone leaves the cells that the sprite covers alone. -/
theorem State.spriteCovers_drawn_iff (s : State) {x y : Reg} (hx : x ≠ vf) (hy : y ≠ vf) (n : Fin 16) (row : Fin 32)
    (column : Fin 64) : spriteCovers (s.drawn x y n) x y n row column ↔ spriteCovers s x y n row column := by
  have hmem : (s.drawn x y n).mem = s.mem := rfl
  have hi : (s.drawn x y n).i = s.i := rfl
  have hvx : (s.drawn x y n).getV x = s.getV x := s.drawn_onlyRegs x y n x (by simpa using hx)
  have hvy : (s.drawn x y n).getV y = s.getV y := s.drawn_onlyRegs x y n y (by simpa using hy)
  simp only [spriteCovers, hmem, hi, hvx, hvy]

/-- The second of two equal draws undoes the first. -/
theorem State.drawn_drawn_cell (s : State) {x y : Reg} (hx : x ≠ vf) (hy : y ≠ vf) (n : Fin 16) (row : Fin 32)
    (column : Fin 64) : ((s.drawn x y n).drawn x y n).fb.cell row column = s.fb.cell row column := by
  by_cases hcover : spriteCovers s x y n row column
  · have hcover' := (s.spriteCovers_drawn_iff hx hy n row column).2 hcover
    rw [(State.spriteCovers_iff_drawn ..).1 hcover', (State.spriteCovers_iff_drawn ..).1 hcover, Bool.not_not]
  · have hcover' := mt (s.spriteCovers_drawn_iff hx hy n row column).1 hcover
    rw [not_ne_iff.1 (mt (State.drawn_toggles_iff ..).1 hcover'), not_ne_iff.1 (mt (State.drawn_toggles_iff ..).1 hcover)]

/-- Settles O46: a collision is a covered cell that was set, and two equal draws cancel. -/
theorem collisionIsSetToUnset : Obligations.CollisionIsSetToUnset := by
  unfold Obligations.CollisionIsSetToUnset
  refine ⟨fun x y n s t hfits h => ?_, fun x y n s t hx hy hfits h => ?_⟩
  · cases (exec_drw x y hfits).symm.trans h
    exact s.drawn_collides_iff_set_to_unset x y n
  · cases (exec_drw x y hfits).symm.trans h
    refine ⟨_, exec_drw (s := s.drawn x y n) x y hfits, s.drawn_drawn_cell hx hy n, ?_⟩
    simp only [State.drawn_collides_iff_set_to_unset, s.drawn_drawn_cell hx hy n, and_comm]

end Machine
end Sys2Proof
end

section
/-! SUPPORT. The keys (spec/45_keys_timers.md R93, R94, R96; spec/60_exceptions.md R110). -/

namespace Sys2Proof

theorem decodeWord_skp (x : Reg) : decodeWord (trunc16 (0xE09E + 0x100 * x.val)) = .ok (.skp x) :=
  decodeWord_of_encode (wordXNN_eq_pattern_add 0xE x 0x9E) rfl

theorem decodeWord_sknp (x : Reg) : decodeWord (trunc16 (0xE0A1 + 0x100 * x.val)) = .ok (.sknp x) :=
  decodeWord_of_encode (wordXNN_eq_pattern_add 0xE x 0xA1) rfl

theorem decodeWord_ldVxK (x : Reg) : decodeWord (trunc16 (0xF00A + 0x100 * x.val)) = .ok (.ldVxK x) :=
  decodeWord_of_encode (wordXNN_eq_pattern_add 0xF x 0x0A) rfl

namespace Machine

theorem skipOnKey_of_key {s : State} {x : Reg} {k : Key} (h : (s.getV x).toNat = k.val) (want : Bool) :
    s.skipOnKey x want = .next (s.skipIf (s.keyDown k == want)) := by
  have hlt : (s.getV x).toNat < 16 := h ▸ k.isLt
  have hk : (⟨(s.getV x).toNat, hlt⟩ : Key) = k := Fin.ext h
  rw [State.skipOnKey, keyOperand_ok hlt, hk]
  rfl

theorem skipOnKey_of_no_key {s : State} {x : Reg} (h : 15 < (s.getV x).toNat) (want : Bool) :
    s.skipOnKey x want = .next (s.raise (.keyIndexFault (s.getV x))) := by
  rw [State.skipOnKey, keyOperand_error h]
  rfl

/-- Settles O48, by whether V[X] is the number of a key; SKNP skips where SKP does not. -/
theorem skipsOnKey : Obligations.SkipsOnKey := by
  unfold Obligations.SkipsOnKey
  refine ⟨fun x => ⟨decodeWord_skp x, decodeWord_sknp x⟩, fun x s k hk => ⟨?_, ?_⟩, fun x s h => ⟨?_, ?_⟩⟩
  · exact ⟨_, skipOnKey_of_key hk true, s.skipIf_only _, s.skipIf_pc_of_iff beq_iff_eq⟩
  · refine ⟨_, skipOnKey_of_key hk false, s.skipIf_only _, ?_⟩
    rw [s.skipIf_pc_of_iff (beq_iff_eq.trans (Bool.not_eq_true _).symm.to_iff), ite_not]
  · exact ⟨_, skipOnKey_of_no_key h true, s.raise_takes _⟩
  · exact ⟨_, skipOnKey_of_no_key h false, s.raise_takes _⟩

/-! ### The wait for a key -/

theorem exec_ldVxK_pressed {s : State} {k : Key} (x : Reg) (h : s.lowestKey = some k) :
    exec (.ldVxK x) s = .next ((s.setV x (trunc8 k.val)).advance 2) := by
  rw [exec, execLdVxK, h]

theorem exec_ldVxK_waits {s : State} (x : Reg) (h : ∀ k : Key, s.keyDown k = false) : exec (.ldVxK x) s = .next s := by
  rw [exec, execLdVxK, lowestKey_eq_none.2 h]

theorem trunc8_key_toNat (k : Key) : (trunc8 k.val).toNat = k.val := by
  have := k.isLt
  rw [BitVec.toNat_ofNat]
  omega

/-- Settles O49, with a key pressed and with none. -/
theorem keyWaitTakesLowestKey : Obligations.KeyWaitTakesLowestKey := by
  unfold Obligations.KeyWaitTakesLowestKey
  refine ⟨decodeWord_ldVxK, fun x s k hdown hlow => ?_, fun x s h => ⟨s, exec_ldVxK_waits x h, .refl _ s⟩⟩
  refine ⟨_, exec_ldVxK_pressed x (lowestKey_eq_some hdown hlow), s.setV_advance_only x _ 2, s.setV_advance_onlyRegs x _ 2,
    rfl, ?_⟩
  rw [State.setV_advance_getV_self, trunc8_key_toNat]

/-- The engine runs and is at a FX0A with no key pressed (R96). -/
structure Waits (x : Reg) (op : Word) (s : State) : Prop where
  /-- no fault -/
  running : s.fault = none
  /-- the word at pc -/
  fetched : s.fetch = .ok op
  /-- is FX0A -/
  decoded : decodeWord op = .ok (.ldVxK x)
  /-- no key is pressed -/
  unpressed : ∀ k : Key, s.keyDown k = false

theorem Waits.step {x : Reg} {op : Word} {s : State} (h : Waits x op s) (rand : Byte) :
    transact (.step rand) s = .next (s, .stepped none none) := by
  rw [transact_step_exec h.running h.fetched h.decoded (exec_ldVxK_waits (s := s.withDraw rand) x h.unpressed),
    State.withDraw_fault, h.running]
  rfl

/-- A tick moves the timers, which a wait does not look at. -/
theorem Waits.tick {x : Reg} {op : Word} {s : State} (h : Waits x op s) : Waits x op s.tick.1 := by
  obtain ⟨d, b, e⟩ := s.tick_eq
  exact e ▸ ⟨h.running, h.fetched, h.decoded, h.unpressed⟩

/-- A wait lasts through any steps and ticks. -/
theorem Waits.run {x : Reg} {op : Word} {s : State} (h : Waits x op s) {ts : List Transaction}
    (hts : ∀ tr ∈ ts, tr = .tick ∨ ∃ rand, tr = .step rand) :
    ∃ t rs, run ts s = .next (t, rs) ∧ OnlyChanges [.dt, .st] s t := by
  induction ts generalizing s with
  | nil => exact ⟨s, [], run_nil s, .refl _ s⟩
  | cons tr ts ih =>
    obtain ⟨htr, hrest⟩ := List.forall_mem_cons.1 hts
    rcases htr with rfl | ⟨rand, rfl⟩
    · obtain ⟨t, rs, hrun, honly⟩ := ih h.tick hrest
      exact ⟨t, _, run_cons_next rfl hrun, s.tick_only.comp honly (by decide)⟩
    · obtain ⟨t, rs, hrun, honly⟩ := ih h hrest
      exact ⟨t, _, run_cons_next (h.step rand) hrun, honly⟩

/-- With all other keys up, the key pressed is the lowest one. -/
theorem Waits.lowestKey_setKey {x : Reg} {op : Word} {s : State} (h : Waits x op s) (k : Key) :
    (s.setKey k true).lowestKey = some k :=
  lowestKey_eq_some (by rw [State.setKey_keyDown, if_pos rfl])
    fun j hj => by rw [State.setKey_keyDown, if_neg hj.ne, h.unpressed j]

theorem Waits.press {x : Reg} {op : Word} {s : State} (h : Waits x op s) (k : Key) (rand : Byte) :
    transact (.step rand) (s.setKey k true) =
      .next (((s.setKey k true).setV x (trunc8 k.val)).advance 2, .stepped none none) := by
  have hexec := exec_ldVxK_pressed (s := (s.setKey k true).withDraw rand) x (h.lowestKey_setKey k)
  rw [transact_step_exec (s := s.setKey k true) h.running h.fetched h.decoded hexec, State.advance_fault, State.setV_fault,
    State.withDraw_fault, State.setKey_fault, h.running]
  rfl

/-- Settles O50: each step and each tick keeps the wait, and with a key pressed FX0A completes. -/
theorem keyWaitLastsUntilAPress : Obligations.KeyWaitLastsUntilAPress := by
  unfold Obligations.KeyWaitLastsUntilAPress
  intro s op x hrun hf hd hkeys
  have hwait : Waits x op s := ⟨hrun, hf, hd, hkeys⟩
  refine ⟨fun ts => hwait.run, fun k rand => ?_⟩
  refine ⟨_, _, run_cons_next rfl (run_cons_next (hwait.press k rand) (run_nil _)), ?_, rfl⟩
  rw [State.setV_advance_getV_self, trunc8_key_toNat]

/-- Settles O54: of the keys, as of all state, the one named is written. -/
theorem setKeySetsOneKey : Obligations.SetKeySetsOneKey := by
  unfold Obligations.SetKeySetsOneKey
  exact fun k pressed s => ⟨s.setKey k pressed, rfl, s.setKey_only k pressed, fun j => s.setKey_keyDown k j pressed⟩

end Machine
end Sys2Proof
end

section
/-! SUPPORT. Ticks (spec/60_exceptions.md R107, R108). -/

namespace Sys2Proof.Machine

theorem transact_tick (s : State) : transact .tick s = .next (s.tick.1, .ticked (decide (s.st.toNat = 1))) := by
  have hfires : s.tick.2 = decide (s.st.toNat = 1) := by
    rw [Bool.eq_iff_iff, s.tick_fires_iff, decide_eq_true_eq]
  rw [← hfires]
  rfl

/-- A byte lowered by one, where it is not 0 (R107). -/
theorem byte_sub_one_toNat {b : Byte} (h : 0 < b.toNat) : (b - 1).toNat = b.toNat - 1 := by
  bv_omega

theorem State.tickDelay_dt_toNat (s : State) : s.tickDelay.dt.toNat = s.dt.toNat - 1 := by
  unfold State.tickDelay
  split
  · next h => exact byte_sub_one_toNat h
  · next h => omega

theorem State.tickSound_st_toNat (s : State) : s.tickSound.1.st.toNat = s.st.toNat - 1 := by
  unfold State.tickSound
  split
  · next h => rw [h]; rfl
  · split
    · exact byte_sub_one_toNat (by omega)
    · have hzero : s.st.toNat = 0 := by omega
      rw [hzero]

theorem State.tick_dt_toNat (s : State) : s.tick.1.dt.toNat = s.dt.toNat - 1 := by
  have hdt : s.tickDelay.tickSound.1.dt = s.tickDelay.dt := s.tickDelay.tickSound_only .dt (by decide)
  rw [State.tick, hdt, State.tickDelay_dt_toNat]

theorem State.tick_st_toNat (s : State) : s.tick.1.st.toNat = s.st.toNat - 1 := by
  have hst : s.tickDelay.st = s.st := s.tickDelay_only .st (by decide)
  rw [State.tick, State.tickSound_st_toNat, hst]

/-- Settles O52, timer by timer. -/
theorem tickCountsDown : Obligations.TickCountsDown := by
  unfold Obligations.TickCountsDown
  exact fun s => ⟨s.tick.1, transact_tick s, s.tick_only, s.tick_dt_toNat, s.tick_st_toNat⟩

theorem transact_tick_silent {s : State} (h : s.st.toNat ≠ 1) : transact .tick s = .next (s.tick.1, .ticked false) := by
  rw [transact_tick, decide_eq_false h]

theorem transact_tick_fires {s : State} (h : s.st.toNat = 1) : transact .tick s = .next (s.tick.1, .ticked true) := by
  rw [transact_tick, decide_eq_true h]

/-- With ST at 0 no tick fires, and ST stays at 0. -/
theorem run_ticks_silent {s : State} (h : s.st.toNat = 0) (m : Nat) :
    ∃ t, run (List.replicate m .tick) s = .next (t, List.replicate m (.ticked false)) ∧ t.st.toNat = 0 := by
  induction m generalizing s with
  | zero => exact ⟨s, run_nil s, h⟩
  | succ m ih =>
    obtain ⟨t, hrun, ht⟩ := ih (s := s.tick.1) (by rw [State.tick_st_toNat, h])
    exact ⟨t, run_cons_next (transact_tick_silent (by omega)) hrun, ht⟩

/-- Counting down from n + 1 fires at the last tick alone, and no tick after it fires. -/
theorem run_ticks_fire_once {s : State} {n : Nat} (h : s.st.toNat = n + 1) (m : Nat) :
    ∃ t, run (List.replicate (n + 1 + m) .tick) s =
        .next (t, List.replicate n (.ticked false) ++ .ticked true :: List.replicate m (.ticked false)) ∧
      t.st.toNat = 0 := by
  induction n generalizing s with
  | zero =>
    obtain ⟨t, hrun, ht⟩ := run_ticks_silent (s := s.tick.1) (by rw [State.tick_st_toNat, h]) m
    rw [Nat.add_comm, List.replicate_succ]
    exact ⟨t, run_cons_next (transact_tick_fires h) hrun, ht⟩
  | succ n ih =>
    obtain ⟨t, hrun, ht⟩ := ih (s := s.tick.1) (by rw [State.tick_st_toNat, h]; rfl)
    rw [Nat.add_right_comm, List.replicate_succ]
    exact ⟨t, run_cons_next (transact_tick_silent (by omega)) hrun, ht⟩

/-- Settles O53, by induction on the count. -/
theorem soundEventFiresOnce : Obligations.SoundEventFiresOnce := by
  unfold Obligations.SoundEventFiresOnce
  intro s n m h
  obtain ⟨t, hrun, ht⟩ := run_ticks_fire_once h m
  exact ⟨t, hrun, BitVec.eq_of_toNat_eq ht⟩

end Sys2Proof.Machine
end
